-- ==== Sys2Proof/Word.lean ====
section
/-! DEFINITION. The widths of the machine's values (00_scope.md rules R4 and R6, 10_state.md rules R10, R14 and R18). -/

namespace Sys2Proof

/-- One byte of memory: 8 bits (R18). -/
abbrev Byte := BitVec 8

/-- One instruction word: 32 bits, `ILEN` (R4, R50). -/
abbrev Word := BitVec 32

/-- One doubleword, the contents of a general register: 64 bits, `XLEN` (R4, R10). -/
abbrev Doubleword := BitVec 64

/-- A byte address and the program counter: 32 bits, `EA_BITS` and `PC_BITS` (R4, R14, R18). -/
abbrev Addr := BitVec 32

end Sys2Proof
end

