-- ==== Sys2Proof/Syntax.lean ====
section
/-! DEFINITION. The four instructions of spec/opcode_table.json and their assembler tokens
(00_scope.md R2, 30_encoding.md R51 to R55 and R63). -/

namespace Sys2Proof

/-- The number of a general register, `r0` to `r31` (10_state.md R10, 30_encoding.md R53). -/
abbrev Gpr := Fin 32

/-- An instruction of the family, its operands as 30_encoding.md R53 and R54 give them.

`ds` is the byte displacement of R54, a signed number; `ra` is the number in the RA field, which `ld` and `ldx` take in
operand form `RA0` (number 0 means the constant zero) and `ldu` and `ldux` in the plain form (R55). The operands stand
in the order of the source forms of R63. -/
inductive Instr where
  /-- `ld RD, ds(RA0)`: Load Doubleword (R71). -/
  | ld (rt : Gpr) (ds : Int) (ra : Gpr)
  /-- `ldu RD, ds(RA)`: Load Doubleword with Update (R72). -/
  | ldu (rt : Gpr) (ds : Int) (ra : Gpr)
  /-- `ldux RD, RA, RB`: Load Doubleword with Update Indexed (R73). -/
  | ldux (rt ra rb : Gpr)
  /-- `ldx RD, RA0, RB`: Load Doubleword Indexed (R74). -/
  | ldx (rt ra rb : Gpr)
  deriving DecidableEq, Repr

/-- The four mnemonics (00_scope.md R2). -/
inductive Mnemonic where
  | ld
  | ldu
  | ldux
  | ldx
  deriving DecidableEq, Repr

/-- The row of the opcode table that an instruction belongs to. -/
def Instr.mnemonic : Instr → Mnemonic
  | .ld _ _ _ => .ld
  | .ldu _ _ _ => .ldu
  | .ldux _ _ _ => .ldux
  | .ldx _ _ _ => .ldx

/-- A token of assembler source text, as far as the source forms of 30_encoding.md R63 use them. -/
inductive AsmToken where
  | mnemonic (m : Mnemonic)
  | reg (r : Gpr)
  | num (z : Int)
  | comma
  | lparen
  | rparen
  deriving DecidableEq, Repr

end Sys2Proof
end

