-- ==== Sys2Proof/WellFormed.lean ====
section
/-! DEFINITION. Which instructions have an encoding: the displacement checks of 30_encoding.md R54 and R64.

Register numbers are 0 to 31 by their type. The invalid forms of R61 have an encoding (whether one runs is the policy's
affair), so they are well formed here. -/

namespace Sys2Proof

/-- `ds` is a multiple of 4 (R54; R64: the assembler "verifies divisibility by 4"). -/
def dispScaled (ds : Int) : Bool := ds % 4 == 0

/-- `ds` is not below the least displacement of R54, -32768. -/
def dispAtLeastMin (ds : Int) : Bool := decide (-32768 ≤ ds)

/-- `ds` is not above the greatest displacement of R54, +32764. -/
def dispAtMostMax (ds : Int) : Bool := decide (ds ≤ 32764)

/-- The displacement can be encoded (R54). -/
def dispWellFormed (ds : Int) : Bool := dispScaled ds && dispAtLeastMin ds && dispAtMostMax ds

/-- The instruction can be encoded. -/
def Instr.wellFormed : Instr → Bool
  | .ld _ ds _ => dispWellFormed ds
  | .ldu _ ds _ => dispWellFormed ds
  | .ldux _ _ _ => true
  | .ldx _ _ _ => true

end Sys2Proof
end

