-- ==== Sys2Proof/Decode.lean ====
section
/-! DEFINITION. The opcode map, the decoder, the encoder and the assembler of 30_encoding.md (R50 to R66).

Bit positions are those of the column `w[hi:lo]` of R51 and R52 (bit 0 least significant, 00_scope.md R5). -/

namespace Sys2Proof

/-- Why a 32-bit word is no instruction of the family (R59, R60, R62). -/
inductive DecodeReject where
  /-- R62: the word matches none of the four rows and is none of the reserved encodings. -/
  | notInScope
  /-- R59 (primary opcode 58, XO 2 or 3) and R60 (an `ldx` or `ldux` pattern with Rc = 1). -/
  | reservedEncoding
  deriving DecidableEq, Repr

/-- Why a list of bytes does not begin with an instruction. -/
inductive BytesReject where
  /-- Fewer than the four bytes of one instruction (R50). The model's own name; a fetch never meets it (log 26). -/
  | truncated
  /-- The first four bytes are a word that the decoder rejects. -/
  | word (r : DecodeReject)
  deriving DecidableEq, Repr

/-! ### The fields of R51 and R52 -/

/-- `OPCD = w[31:26]`. -/
def fieldOPCD (w : Word) : BitVec 6 := w.extractLsb' 26 6

/-- `RT = w[25:21]`. -/
def fieldRT (w : Word) : BitVec 5 := w.extractLsb' 21 5

/-- `RA = w[20:16]`. -/
def fieldRA (w : Word) : BitVec 5 := w.extractLsb' 16 5

/-- `RB = w[15:11]`, X-form. -/
def fieldRB (w : Word) : BitVec 5 := w.extractLsb' 11 5

/-- `DS = w[15:2]`, DS-form. -/
def fieldDS (w : Word) : BitVec 14 := w.extractLsb' 2 14

/-- `XO = w[1:0]`, DS-form. -/
def fieldXODS (w : Word) : BitVec 2 := w.extractLsb' 0 2

/-- `XO = w[10:1]`, X-form. -/
def fieldXOX (w : Word) : BitVec 10 := w.extractLsb' 1 10

/-- `Rc = w[0]`, X-form. -/
def fieldRc (w : Word) : BitVec 1 := w.extractLsb' 0 1

/-- The register that a 5-bit field names (R53). -/
def gprOfField (n : BitVec 5) : Gpr := ⟨n.toNat, n.isLt⟩

/-- The displacement `ds` of R54 as a signed number: `DS || 0b00`, sign-extended. -/
def dispOfField (ds : BitVec 14) : Int := (ds ++ 0#2 : BitVec 16).toInt

/-! ### The opcode map of R56 -/

/-- One row of the opcode map: a word belongs to it when `(w AND mask) = match` (R56). -/
structure OpcodeRow where
  mnemonic  : Mnemonic
  matchWord : Word
  mask      : Word
  deriving DecidableEq, Repr

/-- The row of a mnemonic (R56). -/
def opcodeRow : Mnemonic → OpcodeRow
  | .ld => ⟨.ld, 0xE8000000#32, 0xFC000003#32⟩
  | .ldu => ⟨.ldu, 0xE8000001#32, 0xFC000003#32⟩
  | .ldux => ⟨.ldux, 0x7C00006A#32, 0xFC0007FF#32⟩
  | .ldx => ⟨.ldx, 0x7C00002A#32, 0xFC0007FF#32⟩

/-- `(w AND mask) = match` (R56). -/
def OpcodeRow.covers (row : OpcodeRow) (w : Word) : Bool := (w &&& row.mask) == row.matchWord

/-! ### The decoder of R57 -/

/-- Decoding of a word by the procedure of R57, total on 32-bit words. The invalid forms of R61 decode: whether one is
refused depends on the policy, and its test stands in the meanings of `ldu` and `ldux`, after decoding and before
everything else (60_exceptions.md R94). -/
def decodeWord (w : Word) : Except DecodeReject Instr :=
  if fieldOPCD w = 58#6 then
    if fieldXODS w = 0#2 then
      .ok (.ld (gprOfField (fieldRT w)) (dispOfField (fieldDS w)) (gprOfField (fieldRA w)))
    else if fieldXODS w = 1#2 then
      .ok (.ldu (gprOfField (fieldRT w)) (dispOfField (fieldDS w)) (gprOfField (fieldRA w)))
    else .error .reservedEncoding
  else if fieldOPCD w = 31#6 then
    if fieldXOX w = 21#10 then
      if fieldRc w = 0#1 then
        .ok (.ldx (gprOfField (fieldRT w)) (gprOfField (fieldRA w)) (gprOfField (fieldRB w)))
      else .error .reservedEncoding
    else if fieldXOX w = 53#10 then
      if fieldRc w = 0#1 then
        .ok (.ldux (gprOfField (fieldRT w)) (gprOfField (fieldRA w)) (gprOfField (fieldRB w)))
      else .error .reservedEncoding
    else .error .notInScope
  else .error .notInScope

/-- The 32-bit value of four bytes at ascending addresses, most significant byte first (20_memory.md R31, R33). -/
def wordOfBytes (b0 b1 b2 b3 : Byte) : Word := b0 ++ b1 ++ b2 ++ b3

/-- The four bytes of a word at ascending addresses, most significant byte first (20_memory.md R33). -/
def bytesOfWord (w : Word) : List Byte :=
  [w.extractLsb' 24 8, w.extractLsb' 16 8, w.extractLsb' 8 8, w.extractLsb' 0 8]

/-- Decoding of bytes: the instruction that the first four bytes hold and the bytes after it. Total on any bytes;
every instruction is four bytes long (R50). -/
def decode : List Byte → Except BytesReject (Instr × List Byte)
  | b0 :: b1 :: b2 :: b3 :: rest =>
    match decodeWord (wordOfBytes b0 b1 b2 b3) with
    | .ok i => .ok (i, rest)
    | .error r => .error (.word r)
  | _ => .error .truncated

/-- What the decoder reads from an instruction whose bits are `w`, of which `nbits` are given and the others are 0: the
word is laid out as the hardware stores it (R33) and given to `decode`. -/
def decodeTableWord (nbits w : Nat) : Option Instr :=
  match decode (bytesOfWord (BitVec.ofNat 32 (w % 2 ^ nbits))) with
  | .ok (i, _) => some i
  | .error _ => none

/-! ### The encoder, from the format tables of R51 and R52 -/

/-- The 5-bit field that names a register (R53). -/
def fieldOfGpr (r : Gpr) : BitVec 5 := BitVec.ofNat 5 r.val

/-- The 14-bit field of a displacement, `DS = ds[15:2]` (R64). -/
def fieldOfDisp (ds : Int) : BitVec 14 := (BitVec.ofInt 16 ds).extractLsb' 2 14

/-- A DS-form word: OPCD 58, RT, RA, DS, XO (R51). -/
def encodeDS (rt ra : Gpr) (ds : Int) (xo : BitVec 2) : Word :=
  58#6 ++ fieldOfGpr rt ++ fieldOfGpr ra ++ fieldOfDisp ds ++ xo

/-- An X-form word: OPCD 31, RT, RA, RB, XO, Rc = 0 (R52). -/
def encodeX (rt ra rb : Gpr) (xo : BitVec 10) : Word :=
  31#6 ++ fieldOfGpr rt ++ fieldOfGpr ra ++ fieldOfGpr rb ++ xo ++ 0#1

/-- The word of a well-formed instruction (R51, R52, R56). -/
def encodeWord : Instr → Word
  | .ld rt ds ra => encodeDS rt ra ds 0#2
  | .ldu rt ds ra => encodeDS rt ra ds 1#2
  | .ldux rt ra rb => encodeX rt ra rb 53#10
  | .ldx rt ra rb => encodeX rt ra rb 21#10

/-- The bytes of a well-formed instruction as they lie in memory at ascending addresses (R33). -/
def encode (i : Instr) : List Byte := bytesOfWord (encodeWord i)

/-! ### The assembler of R63 to R66 -/

/-- Why the assembler does not encode a source line. -/
inductive AsmReject where
  /-- R64: "A displacement that is not a multiple of 4 is rejected by the assembler." -/
  | notMultipleOf4
  /-- R64: a displacement outside -32768 … +32764 cannot be encoded; how the assembler reports that is not in the
  source, and the name is the model's (log 25). -/
  | outOfRange
  deriving DecidableEq, Repr

/-- The assembler's check of the displacement and its encoding (R64, R65). -/
def assemble (i : Instr) : Except AsmReject Word :=
  match i with
  | .ld _ ds _ | .ldu _ ds _ =>
    if dispScaled ds = false then .error .notMultipleOf4
    else if dispWellFormed ds = false then .error .outOfRange
    else .ok (encodeWord i)
  | .ldux _ _ _ | .ldx _ _ _ => .ok (encodeWord i)

/-- An `RA0` operand in source text: the number `0` for field value 0, the register otherwise (R63). -/
def asmBase0 (ra : Gpr) : AsmToken := if ra = 0 then .num 0 else .reg ra

/-- The source form of an instruction (R63). -/
def asmTokens : Instr → List AsmToken
  | .ld rt ds ra => [.mnemonic .ld, .reg rt, .comma, .num ds, .lparen, asmBase0 ra, .rparen]
  | .ldu rt ds ra => [.mnemonic .ldu, .reg rt, .comma, .num ds, .lparen, .reg ra, .rparen]
  | .ldux rt ra rb => [.mnemonic .ldux, .reg rt, .comma, .reg ra, .comma, .reg rb]
  | .ldx rt ra rb => [.mnemonic .ldx, .reg rt, .comma, asmBase0 ra, .comma, .reg rb]

/-- The RA field of an `RA0` operand. `r0` written in that place is not accepted: the source does not say that it is
(log 25). -/
def parseBase0 : AsmToken → Option Gpr
  | .num z => if z = 0 then some 0 else none
  | .reg r => if r = 0 then none else some r
  | _ => none

/-- The instruction that a source line stands for, by the four source forms of R63; no other form exists (R66). -/
def parseAsm : List AsmToken → Option Instr
  | [.mnemonic .ld, .reg rt, .comma, .num ds, .lparen, base, .rparen] => (parseBase0 base).map (.ld rt ds ·)
  | [.mnemonic .ldu, .reg rt, .comma, .num ds, .lparen, .reg ra, .rparen] => some (.ldu rt ds ra)
  | [.mnemonic .ldux, .reg rt, .comma, .reg ra, .comma, .reg rb] => some (.ldux rt ra rb)
  | [.mnemonic .ldx, .reg rt, .comma, base, .comma, .reg rb] => (parseBase0 base).map (.ldx rt · rb)
  | _ => none

/-- A mnemonic in source text (R63). -/
def mnemonicText : Mnemonic → String
  | .ld => "ld"
  | .ldu => "ldu"
  | .ldux => "ldux"
  | .ldx => "ldx"

/-- A token in source text, with the spaces of R63's printed forms; a register is written `rN` (R63). -/
def tokenText : AsmToken → String
  | .mnemonic m => mnemonicText m ++ " "
  | .reg r => "r" ++ toString r.val
  | .num z => toString z
  | .comma => ", "
  | .lparen => "("
  | .rparen => ")"

/-- An instruction as a line of source text (R63). -/
def asmText (i : Instr) : String := (asmTokens i).foldl (fun text t => text ++ tokenText t) ""

end Sys2Proof
end

