-- ==== Sys2Proof/Config.lean ====
section
/-! DEFINITION. The configuration record: the rows of 00_scope.md rule R4 marked "argument" that a step needs.

R4 forbids a model to fix them. `step` takes a state and nothing else, so the record stands in the state as plain data
(`State.platform`); no step changes it, and a claim about every state is a claim about every policy and every admit map
(notes/assumptions 4 and 5). The other arguments of R4 are: `ENTRY`, `MEM0` and `GPR0`, the launch state itself (any
`State`); and `HALT`, the argument of `runUntil` in Sys2Proof/Safety.lean. -/

namespace Sys2Proof

/-- `INVALID_FORM_POLICY` (00_scope.md R4, 30_encoding.md R61): what becomes of `ldu`/`ldux` with RA = 0 or RA = RT. -/
inductive InvalidFormPolicy where
  /-- The default: the invalid form is refused with reason `InvalidForm`. Safe. -/
  | refuse
  /-- The invalid form runs as the source's interpreter runs it (40_load_doubleword.md R75). Unsafe as a claim about
  the chip: nothing in the source says that the chip behaves so (log 5). -/
  | snapshot
  deriving DecidableEq, Repr

/-- The `kind` argument of `Admit(addr, n, kind)` (00_scope.md R4). -/
inductive AccessKind where
  | data
  | fetch
  deriving DecidableEq, Repr

/-- One window of the platform's address map: accesses of one kind that lie wholly in `first … last` are admitted.
20_memory.md R39 leaves the map open; windows that overlap or touch are not merged, so that any set of data
addresses and any set of fetch addresses can be written as a list of windows (log 4). -/
structure Window where
  kind  : AccessKind
  first : Nat
  last  : Nat
  deriving DecidableEq, Repr

/-- The step's arguments of 00_scope.md R4, fixed for a run. -/
structure Platform where
  policy   : InvalidFormPolicy
  admitMap : List Window
  deriving DecidableEq, Repr

/-- The platform of `State.reset`: the policy is R4's default `refuse`; the map admits the whole 32-bit space for
both kinds. DESIGN CHOICE, unsafe: the spec leaves the map open (log 4). -/
def Platform.default : Platform where
  policy := .refuse
  admitMap := [⟨.data, 0, 0xFFFFFFFF⟩, ⟨.fetch, 0, 0xFFFFFFFF⟩]

end Sys2Proof
end

