-- ==== Sys2Proof/Machine/State.lean ====
section
/-! DEFINITION. The state of the machine as plain data, the outcomes of a step, and the state after reset
(10_state.md R10 to R20, 00_scope.md R8). -/

namespace Sys2Proof.Machine

/-- Memory: the listed bytes, each an address and its byte, in one canonical form (`Memory.wf` of Machine/Ops.lean);
an address that is not listed holds `Memory.unlisted`. Every contents `MEM0` of the byte array of 10_state.md R18 has
exactly one such list. -/
abbrev Memory := List Host.Cell

/-- The fixed-point exception register (10_state.md R15): the three bits the source names, and the rest of it, whose
layout is not in the source and is held as one number that nothing takes apart (log 18). -/
structure Xer where
  ca   : Bool
  ov   : Bool
  so   : Bool
  rest : Nat
  deriving DecidableEq, Repr

/-- Everything the spec gives the machine.

`cr`, `xer.rest`, `fprFile` and `vrFile` are contents whose count, widths and layout are not in the source (10_state.md
R15, R17; 91_not_in_source.md N8, N9): each is one uninterpreted number, so that no layout is assumed. No instruction of
the family reads or writes them (R15, R17, R19). -/
structure State where
  /-- `r0` to `r31`, 64 bits each (R10); none is hardwired (R11). -/
  gprs     : Vector Doubleword 32
  /-- The byte address of the instruction being executed (R13, R14). -/
  pc       : Addr
  /-- The one byte array of data and instructions (R18, 20_memory.md R30). -/
  mem      : Memory
  /-- The condition register (R15). -/
  cr       : Nat
  /-- The fixed-point exception register (R15). -/
  xer      : Xer
  /-- The floating-point registers (R17). -/
  fprFile  : Nat
  /-- The vector registers (R17). -/
  vrFile   : Nat
  /-- The arguments of 00_scope.md R4, fixed for a run. -/
  platform : Platform
  deriving DecidableEq, Repr

/-- The faults of the machine: none. 00_scope.md R8: "No rule of this spec makes the model *fault* in the sense of an
architected trap, because the source describes none"; 60_exceptions.md R90, R95. -/
inductive Fault where
  deriving DecidableEq, Repr

/-- The reasons a step is refused: the closed list of 00_scope.md R8, and the host's own. A refusal leaves the state as
it was (40_load_doubleword.md R77). -/
inductive Refusal where
  /-- An instruction whose meaning is not written yet: raised by no arm of `exec`. Safe. -/
  | notModelled (mnemonic : String)
  /-- The fetched word is none of the four instructions (30_encoding.md R62). Raised by the fetch. Safe. -/
  | notInScope
  /-- Primary opcode 58 with XO 2 or 3, or an `ldx`/`ldux` word with Rc = 1 (30_encoding.md R59, R60). Raised by the
  fetch. Safe. -/
  | reservedEncoding
  /-- `ldu` or `ldux` with RA = 0 or RA = RT under policy `refuse` (30_encoding.md R61). Raised by those two. Safe. -/
  | invalidForm
  /-- A data read with EA above 0xFFFFFFF8 (20_memory.md R38). Raised by all four. Safe. -/
  | topOfSpace
  /-- An access that `Admit` rejects (20_memory.md R39). Raised by the fetch and by all four. Safe. -/
  | notAdmitted
  /-- A program counter that is no multiple of 4 (20_memory.md R35). Raised by the fetch. Safe. -/
  | fetchMisaligned
  /-- A step at pc = 0xFFFFFFFC (10_state.md R14). Raised by all four. Safe. -/
  | pcOverflow
  deriving DecidableEq, Repr

/-- The outcome of a step of this machine. -/
abbrev Outcome := Host.Outcome State Fault Refusal

/-- The machine right after reset. The spec gives no reset value for any piece of state (10_state.md R20,
70_reset_and_hazards.md R110: every State is a launch state); each value here is a DESIGN CHOICE, unsafe (logs 1 to 5,
18, 19), but for the policy, which is the default that 00_scope.md R4 states. No program is placed (log 24). -/
def State.reset : State where
  gprs := Vector.replicate 32 0#64
  pc := 0#32
  mem := []
  cr := 0
  xer := ⟨false, false, false, 0⟩
  fprFile := 0
  vrFile := 0
  platform := Platform.default

end Sys2Proof.Machine
end

