-- ==== Sys2Proof/Machine/Ops.lean ====
section
/-! DEFINITION. The named operations over registers and memory, the fetch, and the shared load
(00_scope.md R7, 20_memory.md, 40_load_doubleword.md R70). -/

namespace Sys2Proof.Machine

/-! ### Registers (R7, 10_state.md R10, R11, R13) -/

/-- `x[i]`: general register `i`. -/
def State.gpr (s : State) (i : Gpr) : Doubleword := s.gprs[i]

/-- `x[i] <- v`: no register is hardwired (R11). -/
def State.setGpr (s : State) (i : Gpr) (v : Doubleword) : State := { s with gprs := s.gprs.set i v }

/-- `pc <- t`. -/
def State.setPc (s : State) (t : Addr) : State := { s with pc := t }

/-! ### Memory (10_state.md R18) -/

/-- What an address that the memory does not list holds. A choice of representation, and the contents of `State.reset`'s
memory: DESIGN CHOICE, unsafe (log 3). -/
def Memory.unlisted : Byte := 0#8

/-- The byte a list holds at a key. -/
def Memory.lookup : Memory → Nat → Byte
  | [], _ => Memory.unlisted
  | (k, v) :: m, a => if k = a then v else Memory.lookup m a

/-- The list with one byte set, in canonical form: the key inserted in order, or removed where the byte is what an
unlisted address holds. -/
def Memory.store : Memory → Nat → Byte → Memory
  | [], a, b => if b = Memory.unlisted then [] else [(a, b)]
  | (k, v) :: m, a, b =>
    if k < a then (k, v) :: Memory.store m a b
    else if k = a then (if b = Memory.unlisted then m else (a, b) :: m)
    else (if b = Memory.unlisted then (k, v) :: m else (a, b) :: (k, v) :: m)

/-- Every key is at least `low` and below 2^32, the keys rise strictly, and no entry is what an unlisted address
holds. -/
def Memory.wfFrom (low : Nat) : Memory → Bool
  | [] => true
  | (k, v) :: m => decide (low ≤ k) && decide (k < 2 ^ 32) && decide (v ≠ Memory.unlisted) && Memory.wfFrom (k + 1) m

/-- The canonical form: strictly rising 32-bit addresses, and no entry equal to what an unlisted address holds. -/
def Memory.wf (m : Memory) : Bool := Memory.wfFrom 0 m

/-- `mem[addr]` (R18). -/
def Memory.byteAt (m : Memory) (addr : Addr) : Byte := Memory.lookup m addr.toNat

/-- `mem[addr] <- b`. -/
def Memory.setByte (m : Memory) (addr : Addr) (b : Byte) : Memory := Memory.store m addr.toNat b

/-- `MemRead(addr, 8)` (20_memory.md R31): the byte at the lowest address is the most significant byte. Used only where
`addr + 7` does not pass the top of the space (`load8`); beyond it the byte addresses wrap here: DESIGN CHOICE
(log 29). -/
def Memory.read8 (m : Memory) (addr : Addr) : Doubleword :=
  m.byteAt addr ++ m.byteAt (addr + 1) ++ m.byteAt (addr + 2) ++ m.byteAt (addr + 3) ++
    m.byteAt (addr + 4) ++ m.byteAt (addr + 5) ++ m.byteAt (addr + 6) ++ m.byteAt (addr + 7)

/-- `MemRead(addr, 4)` (20_memory.md R31, R33). Above 0xFFFFFFFC, where R31 gives no byte addresses, they wrap here:
DESIGN CHOICE (log 29); no step reads there, since the pc is a multiple of 4 (R35). -/
def Memory.read4 (m : Memory) (addr : Addr) : Word :=
  wordOfBytes (m.byteAt addr) (m.byteAt (addr + 1)) (m.byteAt (addr + 2)) (m.byteAt (addr + 3))

/-- Bytes stored at ascending addresses from `addr`. Past 0xFFFFFFFF, where 00_scope.md R7 gives `MemWrite` neither a
range nor an outcome, the byte addresses wrap to 0: DESIGN CHOICE (log 29); no instruction writes memory. -/
def Memory.setBytes (m : Memory) (addr : Addr) : List Byte → Memory
  | [] => m
  | b :: bs => Memory.setBytes (m.setByte addr b) (addr + 1) bs

/-- The eight bytes of a doubleword at ascending addresses, most significant first (R31). -/
def bytesOfDoubleword (v : Doubleword) : List Byte :=
  [v.extractLsb' 56 8, v.extractLsb' 48 8, v.extractLsb' 40 8, v.extractLsb' 32 8,
    v.extractLsb' 24 8, v.extractLsb' 16 8, v.extractLsb' 8 8, v.extractLsb' 0 8]

/-- `MemWrite(addr, 8, v)` (00_scope.md R7), "defined for completeness": no instruction in scope writes memory. Past the
top of the space: log 29. -/
def Memory.write8 (m : Memory) (addr : Addr) (v : Doubleword) : Memory := m.setBytes addr (bytesOfDoubleword v)

/-- `MemWrite(addr, 4, v)` (00_scope.md R7). Past the top of the space: log 29. -/
def Memory.write4 (m : Memory) (addr : Addr) (v : Word) : Memory := m.setBytes addr (bytesOfWord v)

/-! ### The platform's `Admit` (20_memory.md R39) -/

/-- The window admits the `n` bytes at `addr` for `kind`. -/
def Window.admits (w : Window) (addr : Addr) (n : Nat) (kind : AccessKind) : Bool :=
  decide (w.kind = kind) && decide (w.first ≤ addr.toNat) && decide (addr.toNat + n ≤ w.last + 1)

/-- `Admit(addr, n, kind)`: a pure function of its arguments, fixed for a run (R39). -/
def State.admits (s : State) (addr : Addr) (n : Nat) (kind : AccessKind) : Bool :=
  s.platform.admitMap.any (Window.admits · addr n kind)

/-! ### The helpers of 40_load_doubleword.md R70 -/

/-- `Load8(EA)`: `TopOfSpace` first, where EA is above 0xFFFFFFF8 (20_memory.md R38); then `NotAdmitted`; then the eight
bytes (R70, 60_exceptions.md R94). A misaligned EA is read like any other (20_memory.md R34, log 31). -/
def load8 (s : State) (ea : Addr) : Except Refusal Doubleword :=
  if 0xFFFFFFF8 < ea.toNat then .error .topOfSpace
  else if s.admits ea 8 .data = false then .error .notAdmitted
  else .ok (s.mem.read8 ea)

/-- `next_pc`: `pc + 4`, refused at the last word of the space (R70, 10_state.md R14). -/
def nextPc (s : State) : Except Refusal Addr :=
  if s.pc = 0xFFFFFFFC#32 then .error .pcOverflow else .ok (s.pc + 4)

/-- The part that the four instructions share: read the doubleword at `ea`, work out the next pc, and only then write
the registers (`writes`, given the doubleword) and the pc. A refusal anywhere changes nothing (R77). -/
def completeLoad (s : State) (ea : Addr) (writes : Doubleword → State → State) : Outcome :=
  match load8 s ea with
  | .error r => .refused r
  | .ok v =>
    match nextPc s with
    | .error r => .refused r
    | .ok t => .next ((writes v s).setPc t)

/-! ### The fetch (40_load_doubleword.md R70) -/

/-- The name of a decoder's rejection among the refusal reasons (R59, R60, R62). -/
def refusalOfReject : DecodeReject → Refusal
  | .notInScope => .notInScope
  | .reservedEncoding => .reservedEncoding

/-- `MemRead(pc, 4)`: the word at the program counter, big-endian (20_memory.md R33). -/
def fetchWord (s : State) : Word := s.mem.read4 s.pc

/-- The instruction at the program counter: `FetchMisaligned`, then `NotAdmitted`, then the decoder's rejections
(R70, 60_exceptions.md R94). -/
def fetch (s : State) : Except Refusal Instr :=
  if s.pc.toNat % 4 ≠ 0 then .error .fetchMisaligned
  else if s.admits s.pc 4 .fetch = false then .error .notAdmitted
  else
    match decodeWord (fetchWord s) with
    | .error r => .error (refusalOfReject r)
    | .ok i => .ok i

/-- The bytes of a table word stored where the machine fetches its next instruction: at the program counter, in the byte
order of the fetch. -/
def placeWordAtPc (s : State) (nbits w : Nat) : State :=
  { s with mem := s.mem.write4 s.pc (BitVec.ofNat 32 (w % 2 ^ nbits)) }

end Sys2Proof.Machine
end

