-- ==== Sys2Proof/Machine/Operands.lean ====
section
/-! DEFINITION. The operand forms, the effective addresses and the invalid forms
(30_encoding.md R54, R55, R61; 40_load_doubleword.md R70 to R76). -/

namespace Sys2Proof.Machine

/-- `base0(RA)`, the operand form `RA0`: the constant 0 for field value 0, the register otherwise (R55, R70). -/
def base0 (s : State) (ra : Gpr) : Doubleword := if ra = 0 then 0#64 else s.gpr ra

/-- The displacement as a 64-bit addend, `sext_64(DS || 0b00)` (R54). -/
def dispAddend (ds : Int) : Doubleword := BitVec.ofInt 64 ds

/-- `ea32(s) = s[31:0]` (R70). -/
def ea32 (sum : Doubleword) : Addr := sum.extractLsb' 0 32

/-- The effective address of `ld` (R71). -/
def eaLd (s : State) (ds : Int) (ra : Gpr) : Addr := ea32 (base0 s ra + dispAddend ds)

/-- The effective address of `ldu`: field value 0 names `r0` (R72, R75). -/
def eaLdu (s : State) (ds : Int) (ra : Gpr) : Addr := ea32 (s.gpr ra + dispAddend ds)

/-- The effective address of `ldux`: field value 0 names `r0` in both places (R73, R75). -/
def eaLdux (s : State) (ra rb : Gpr) : Addr := ea32 (s.gpr ra + s.gpr rb)

/-- The effective address of `ldx`: field value 0 is the constant 0 for RA and `r0` for RB (R74). -/
def eaLdx (s : State) (ra rb : Gpr) : Addr := ea32 (base0 s ra + s.gpr rb)

/-- The value an update form writes to RA, `zext_64(EA)` (R72, R73). UNVERIFIED of the chip, unsafe (log 7). -/
def updateValue (ea : Addr) : Doubleword := ea.setWidth 64

/-- `ldu` and `ldux` with RA = 0 or RA = RT (30_encoding.md R61). -/
def isInvalidForm (rt ra : Gpr) : Bool := decide (ra = 0) || decide (ra = rt)

/-- The policy refuses this update form (30_encoding.md R61, 00_scope.md R4). -/
def refusesForm (s : State) (rt ra : Gpr) : Bool := decide (s.platform.policy = .refuse) && isInvalidForm rt ra

/-- The register write of `ld` and `ldx`: `x[RT] <- v` (R71, R74). -/
def writeTarget (rt : Gpr) (v : Doubleword) (s : State) : State := s.setGpr rt v

/-- The register writes of `ldu` and `ldux`, RT first and RA second: `x[RT] <- v`, `x[RA] <- zext_64(EA)`
(R72, R73, R75, R77). -/
def writeTargetAndBase (rt ra : Gpr) (ea : Addr) (v : Doubleword) (s : State) : State :=
  (s.setGpr rt v).setGpr ra (updateValue ea)

end Sys2Proof.Machine
end

