-- ==== Sys2Proof/Machine/LoadDoubleword.lean ====
section
/-! DEFINITION. The meanings of the four doubleword loads (40_load_doubleword.md R71 to R75). -/

namespace Sys2Proof.Machine

/-- `ld RD, ds(RA0)` (R71). -/
def execLd (rt : Gpr) (ds : Int) (ra : Gpr) (s : State) : Outcome :=
  completeLoad s (eaLd s ds ra) (writeTarget rt)

/-- `ldu RD, ds(RA)` (R72); an invalid form is refused or runs by R75, as the policy says. -/
def execLdu (rt : Gpr) (ds : Int) (ra : Gpr) (s : State) : Outcome :=
  if refusesForm s rt ra then .refused .invalidForm
  else completeLoad s (eaLdu s ds ra) (writeTargetAndBase rt ra (eaLdu s ds ra))

/-- `ldux RD, RA, RB` (R73); an invalid form is refused or runs by R75, as the policy says. -/
def execLdux (rt ra rb : Gpr) (s : State) : Outcome :=
  if refusesForm s rt ra then .refused .invalidForm
  else completeLoad s (eaLdux s ra rb) (writeTargetAndBase rt ra (eaLdux s ra rb))

/-- `ldx RD, RA0, RB` (R74). -/
def execLdx (rt ra rb : Gpr) (s : State) : Outcome :=
  completeLoad s (eaLdx s ra rb) (writeTarget rt)

end Sys2Proof.Machine
end

