-- ==== Sys2Proof/Machine/Dispatch.lean ====
section
/-! DEFINITION. One arm per instruction. -/

namespace Sys2Proof.Machine

def exec (i : Instr) (s : State) : Host.Outcome State Fault Refusal :=
  match i with
  | .ld rt ds ra => Sys2Proof.Machine.execLd rt ds ra s
  | .ldu rt ds ra => Sys2Proof.Machine.execLdu rt ds ra s
  | .ldux rt ra rb => Sys2Proof.Machine.execLdux rt ra rb s
  | .ldx rt ra rb => Sys2Proof.Machine.execLdx rt ra rb s

end Sys2Proof.Machine
end

