-- ==== Sys2Proof/Machine/Step.lean ====
section
/-! DEFINITION. One step of the machine (40_load_doubleword.md R70). -/

namespace Sys2Proof.Machine

/-- One step: the fetch, which may refuse, then the meaning of the fetched instruction (R70). -/
def step (s : State) : Host.Outcome State Fault Refusal :=
  match fetch s with
  | .error r => .refused r
  | .ok i => exec i s

/-- `s` with a table word stored where `step` fetches its next instruction. It stands for the placing of a program from
outside the machine: nothing in the machine loads one (70_reset_and_hazards.md R111, log 24). -/
def State.withFetchWord (s : State) (nbits w : Nat) : State := placeWordAtPc s nbits w

end Sys2Proof.Machine
end

