-- ==== Sys2Proof/Machine/Flags.lean ====
section
/-! DEFINITION. Flags. The spec gives no flag computation: "No condition-register or status-register effects"
(10_state.md R15), "Flags written: none" (40_load_doubleword.md R71 to R74), no record form and no overflow-enable form.
What stands here is the one fact about flags that the spec states, as a relation between two states. -/

namespace Sys2Proof.Machine

/-- The condition register and XER, its bits CA, OV and SO included, are the same in both states (R15, R19). -/
abbrev SameFlags (s t : State) : Prop := t.cr = s.cr ∧ t.xer = s.xer

end Sys2Proof.Machine
end

