-- ==== Sys2Proof/Safety.lean ====
section
/-! DEFINITION. Runs, the end of a run, launch requirements, the invariant, and the relations between states in which
claims are stated (70_reset_and_hazards.md R110 to R112, 10_state.md R19). -/

namespace Sys2Proof.Machine

/-! ### Runs -/

/-- The state after exactly `k` steps, where every one of them gives a next state. -/
def stepsTo : Nat → State → Option State
  | 0, s => some s
  | k + 1, s =>
    match step s with
    | .next t => stepsTo k t
    | .fault _ => none
    | .refused _ => none

/-- How a run of bounded length stands (70_reset_and_hazards.md R112). -/
inductive RunStatus where
  /-- A normal end: `HALT` holds of the state, which takes no further step. -/
  | ended (s : State)
  /-- A refusal, with its reason and the state it leaves, the one before the refused step. Not an end. -/
  | refused (r : Refusal) (s : State)
  /-- Neither, after the given number of steps. -/
  | running (s : State)
  deriving DecidableEq, Repr

/-- A run of at most `k` steps under the argument `HALT` of 00_scope.md R4 (70_reset_and_hazards.md R112, log 22). -/
def runUntil (halt : State → Bool) : Nat → State → RunStatus
  | 0, s => if halt s then .ended s else .running s
  | k + 1, s =>
    if halt s then .ended s
    else
      match step s with
      | .next t => runUntil halt k t
      | .fault f => nomatch f
      | .refused r => .refused r s

/-- The `HALT` of 95_test_vectors.md: the program counter is the address just after the program (R112). It says nothing
of what the chip does at that address. -/
def haltAt (a : Addr) (s : State) : Bool := decide (s.pc = a)

/-- The address of the word `k` places after the one at the program counter. -/
def wordAddr (s : State) (k : Nat) : Addr := s.pc + BitVec.ofNat 32 (4 * k)

/-- What 70_reset_and_hazards.md R111 asks of a launch state for a program's words to be fetched: `ENTRY` is a multiple
of 4, the words fit below the top of the space, and each lies in memory, big-endian, where a fetch is admitted. (R111's
other clause, on the data addresses that the program reads, is about each load: it is `CanLoad`.) -/
def LaunchOk (program : List Word) (s : State) : Prop :=
  s.pc.toNat % 4 = 0 ∧ s.pc.toNat + 4 * program.length ≤ 2 ^ 32 ∧
    ∀ k w, program[k]? = some w →
      s.admits (wordAddr s k) 4 .fetch = true ∧ s.mem.read4 (wordAddr s k) = w

/-! ### Safe steps -/

/-- Nothing stands in the way of a load at `ea`: the eight bytes lie below the top of the space and are admitted, and
the program counter can advance (40_load_doubleword.md R70). -/
def CanLoad (s : State) (ea : Addr) : Prop :=
  ea.toNat ≤ 0xFFFFFFF8 ∧ s.admits ea 8 .data = true ∧ s.pc ≠ 0xFFFFFFFC#32

/-- The word at the program counter can be fetched (20_memory.md R35, R39). -/
def CanFetch (s : State) : Prop := s.pc.toNat % 4 = 0 ∧ s.admits s.pc 4 .fetch = true

/-- The form runs: `ld` and `ldx` have no invalid form; an update form runs if it is no invalid form, or if the policy is
`snapshot` (30_encoding.md R61). -/
def FormRuns (i : Instr) (s : State) : Prop :=
  match i with
  | .ld _ _ _ => True
  | .ldu rt _ ra => s.platform.policy = .snapshot ∨ (ra ≠ 0 ∧ ra ≠ rt)
  | .ldux rt ra _ => s.platform.policy = .snapshot ∨ (ra ≠ 0 ∧ ra ≠ rt)
  | .ldx _ _ _ => True

/-- The effective address an instruction reads at (40_load_doubleword.md R71 to R74). -/
def effectiveAddress (i : Instr) (s : State) : Addr :=
  match i with
  | .ld _ ds ra => eaLd s ds ra
  | .ldu _ ds ra => eaLdu s ds ra
  | .ldux _ ra rb => eaLdux s ra rb
  | .ldx _ ra rb => eaLdx s ra rb

/-! ### What a step leaves alone -/

/-- The two states agree on every general register outside `written`, on every byte of memory, on the condition
register and XER, on the floating-point and vector registers, and on the platform: on everything but the written
registers and the program counter (10_state.md R19). -/
def SameExcept (written : List Gpr) (s t : State) : Prop :=
  (∀ r, r ∉ written → t.gpr r = s.gpr r) ∧ (∀ a, t.mem.byteAt a = s.mem.byteAt a) ∧ t.mem = s.mem ∧
    SameFlags s t ∧ t.fprFile = s.fprFile ∧ t.vrFile = s.vrFile ∧ t.platform = s.platform

/-- The register an instruction loads into, RT (10_state.md R12). -/
def targetGpr : Instr → Gpr
  | .ld rt _ _ => rt
  | .ldu rt _ _ => rt
  | .ldux rt _ _ => rt
  | .ldx rt _ _ => rt

/-- The register an update form writes its address to, RA (10_state.md R12). -/
def updatedGpr : Instr → Option Gpr
  | .ld _ _ _ => none
  | .ldu _ _ ra => some ra
  | .ldux _ ra _ => some ra
  | .ldx _ _ _ => none

/-- The registers an instruction writes: RT, and for the update forms then RA (10_state.md R12). -/
def writtenGprs (i : Instr) : List Gpr := targetGpr i :: (updatedGpr i).toList

/-- The registers an instruction reads (10_state.md R12): in operand form `RA0` the number 0 reads nothing. -/
def readGprs : Instr → List Gpr
  | .ld _ _ ra => if ra = 0 then [] else [ra]
  | .ldu _ _ ra => [ra]
  | .ldux _ ra rb => [ra, rb]
  | .ldx _ ra rb => if ra = 0 then [rb] else [ra, rb]

/-- The contents of the general registers after an instruction that completes, in the rules' own terms: the updated RA
holds the zero-extended address, RT otherwise the doubleword read, and every other register what it held
(40_load_doubleword.md R71 to R75). -/
def gprAfter (i : Instr) (s : State) (r : Gpr) : Doubleword :=
  if updatedGpr i = some r then (effectiveAddress i s).setWidth 64
  else if targetGpr i = r then s.mem.read8 (effectiveAddress i s)
  else s.gpr r

/-- The effective address of an instruction as a number, from given register contents: the sum of the addends modulo
2^32 (40_load_doubleword.md R71 to R74, R76). -/
def addressFrom (x : Gpr → Doubleword) : Instr → Int
  | .ld _ ds ra => ((if ra = 0 then 0 else ((x ra).toNat : Int)) + ds) % 2 ^ 32
  | .ldu _ ds ra => (((x ra).toNat : Int) + ds) % 2 ^ 32
  | .ldux _ ra rb => (((x ra).toNat : Int) + (x rb).toNat) % 2 ^ 32
  | .ldx _ ra rb => ((if ra = 0 then 0 else ((x ra).toNat : Int)) + (x rb).toNat) % 2 ^ 32

/-- The doubleword is the eight bytes at `ea` in ascending order, most significant first: the byte at `ea + i` is bits
`[63 - 8i : 56 - 8i]` (20_memory.md R31). -/
def HoldsBytesAt (m : Memory) (ea : Addr) (v : Doubleword) : Prop :=
  ∀ i : Nat, i < 8 → v.extractLsb' (56 - 8 * i) 8 = m.byteAt (ea + BitVec.ofNat 32 i)

/-! ### The invariant -/

/-- The program counter is a multiple of 4 (20_memory.md R35) and memory is in its canonical form. -/
def State.Inv (s : State) : Prop := s.pc.toNat % 4 = 0 ∧ s.mem.wf = true

/-- The two states differ at most in the upper halves of their general registers. -/
def LowHalvesAgree (s t : State) : Prop :=
  t.pc = s.pc ∧ t.mem = s.mem ∧ t.platform = s.platform ∧
    ∀ r, (t.gpr r).extractLsb' 0 32 = (s.gpr r).extractLsb' 0 32

end Sys2Proof.Machine
end

