-- ==== Sys2Proof/Certificates/Slice0/Obligations.lean ====
section
/-! DEFINITION. The statements for the provers. Each docstring names the rule of spec/ it formalises. -/

open Sys2Proof Sys2Proof.Machine

/-! ### Encoding (30_encoding.md) -/

/-- R51, R52, R54, R57: decoding gives back every well-formed instruction, whatever its operands. -/
def Obligations.DecodeOfEncodeGivesInstructionBack : Prop :=
  ∀ i : Instr, i.wellFormed = true → decodeWord (encodeWord i) = .ok i

/-- R51, R52, R57: every word that decodes is the encoding of what it decodes to, which is well formed. No bit of an
accepted word is ignored. -/
def Obligations.EncodeOfDecodeGivesWordBack : Prop :=
  ∀ (w : Word) (i : Instr), decodeWord w = .ok i → i.wellFormed = true ∧ encodeWord i = w

/-- R56, its masks derived by the spec: a word is the instruction of a row when `(w AND mask) = match`; no two rows share a word. -/
def Obligations.WordIsOfRowIffMaskedBitsMatch : Prop :=
  (∀ (w : Word) (m : Mnemonic),
    (∃ i, decodeWord w = .ok i ∧ i.mnemonic = m) ↔ w &&& (opcodeRow m).mask = (opcodeRow m).matchWord) ∧
  (∀ (w : Word) (m n : Mnemonic),
    w &&& (opcodeRow m).mask = (opcodeRow m).matchWord → w &&& (opcodeRow n).mask = (opcodeRow n).matchWord → m = n) ∧
  ((opcodeRow .ld).matchWord = 0xE8000000#32 ∧ (opcodeRow .ld).mask = 0xFC000003#32) ∧
  ((opcodeRow .ldu).matchWord = 0xE8000001#32 ∧ (opcodeRow .ldu).mask = 0xFC000003#32) ∧
  ((opcodeRow .ldux).matchWord = 0x7C00006A#32 ∧ (opcodeRow .ldux).mask = 0xFC0007FF#32) ∧
  ((opcodeRow .ldx).matchWord = 0x7C00002A#32 ∧ (opcodeRow .ldx).mask = 0xFC0007FF#32)

/-- R54: `ds` is `DS || 0b00` sign-extended, which is also `w[15:0]` with its two low bits cleared, sign-extended; as a
number it is four times the signed field, a multiple of 4 from -32768 to +32764, both ends reached. -/
def Obligations.DisplacementIsScaledSignedField : Prop :=
  (∀ w : Word,
    dispAddend (dispOfField (fieldDS w)) = (fieldDS w ++ 0#2 : BitVec 16).signExtend 64 ∧
    dispAddend (dispOfField (fieldDS w)) = ((w &&& 0xFFFFFFFC#32).extractLsb' 0 16).signExtend 64) ∧
  (∀ d : BitVec 14,
    dispOfField d = 4 * d.toInt ∧ -8192 ≤ d.toInt ∧ d.toInt ≤ 8191 ∧
    dispOfField d % 4 = 0 ∧ -32768 ≤ dispOfField d ∧ dispOfField d ≤ 32764) ∧
  dispOfField 0b10000000000000#14 = -32768 ∧ dispOfField 0b01111111111111#14 = 32764

/-- R65, which the spec derives from R51, R52, R56 and R64: a word is its match word with the operand fields shifted into place. -/
def Obligations.AssembledWordIsMatchWithShiftedFields : Prop :=
  (∀ (rt ra : Gpr) (ds : Int), dispWellFormed ds = true →
    assemble (.ld rt ds ra) = .ok (0xE8000000#32 ||| (BitVec.ofNat 32 rt <<< 21) ||| (BitVec.ofNat 32 ra <<< 16) |||
      (BitVec.ofInt 32 ds &&& 0xFFFC#32)) ∧
    assemble (.ldu rt ds ra) = .ok (0xE8000001#32 ||| (BitVec.ofNat 32 rt <<< 21) ||| (BitVec.ofNat 32 ra <<< 16) |||
      (BitVec.ofInt 32 ds &&& 0xFFFC#32))) ∧
  (∀ rt ra rb : Gpr,
    assemble (.ldux rt ra rb) = .ok (0x7C00006A#32 ||| (BitVec.ofNat 32 rt <<< 21) ||| (BitVec.ofNat 32 ra <<< 16) |||
      (BitVec.ofNat 32 rb <<< 11)) ∧
    assemble (.ldx rt ra rb) = .ok (0x7C00002A#32 ||| (BitVec.ofNat 32 rt <<< 21) ||| (BitVec.ofNat 32 ra <<< 16) |||
      (BitVec.ofNat 32 rb <<< 11))) ∧
  assemble (.ld 3 8 1) = .ok 0xE8610008#32

/-- R64: the assembler takes exactly the multiples of 4 from -32768 to +32764, and encodes `DS = (ds / 4) mod 2^14`, the
bits `ds[15:2]`. That a displacement out of range is rejected by a reason of its own is the model's choice (log 25). -/
def Obligations.AssemblerChecksAndScalesDisplacement : Prop :=
  ∀ (rt ra : Gpr) (ds : Int),
    (ds % 4 ≠ 0 → assemble (.ld rt ds ra) = .error .notMultipleOf4 ∧
      assemble (.ldu rt ds ra) = .error .notMultipleOf4) ∧
    (ds % 4 = 0 → (ds < -32768 ∨ 32764 < ds) → assemble (.ld rt ds ra) = .error .outOfRange ∧
      assemble (.ldu rt ds ra) = .error .outOfRange) ∧
    (ds % 4 = 0 → -32768 ≤ ds → ds ≤ 32764 →
      ∃ w v, assemble (.ld rt ds ra) = .ok w ∧ assemble (.ldu rt ds ra) = .ok v ∧
        ((fieldDS w).toNat : Int) = (ds / 4) % 2 ^ 14 ∧ ((fieldDS v).toNat : Int) = (ds / 4) % 2 ^ 14 ∧
        fieldDS w = (BitVec.ofInt 64 ds).extractLsb' 2 14 ∧ fieldDS v = (BitVec.ofInt 64 ds).extractLsb' 2 14)

/-- R63: reading back the source form of an instruction gives the instruction. That no other line is accepted, `r0` in an
RA0 place among them, is the model's choice (log 25, DESIGN CHOICE): R63 does not say it. -/
def Obligations.SourceFormReadsBack : Prop :=
  (∀ i : Instr, parseAsm (asmTokens i) = some i) ∧
  (∀ (ts : List AsmToken) (i : Instr), parseAsm ts = some i → asmTokens i = ts)

/-- R33 (the spec's decision D7, log 8), R50: an instruction's four bytes, in the order in which they lie in memory, decode to it, and the bytes after
them are left over. -/
def Obligations.BytesOfInstructionDecodeToIt : Prop :=
  ∀ (i : Instr) (rest : List Byte), i.wellFormed = true →
    (encode i).length = 4 ∧ decode (encode i ++ rest) = .ok (i, rest)

/-- A few words written out from R51, R52 and R54 decode to the instructions they stand for (95_test_vectors.md 2.1). -/
def Obligations.WrittenOutWordsDecode : Prop :=
  decodeWord 0b111010_00011_00001_00000000000010_00#32 = .ok (.ld 3 8 1) ∧
  decodeWord 0b111010_00100_00001_11111111111100_01#32 = .ok (.ldu 4 (-16) 1) ∧
  decodeWord 0b011111_00110_00111_01000_0000110101_0#32 = .ok (.ldux 6 7 8) ∧
  decodeWord 0b011111_00101_00011_00100_0000010101_0#32 = .ok (.ldx 5 3 4)

/-! ### Registers and memory (10_state.md, 20_memory.md) -/

/-- R11: no general register is hardwired: each of the 32, `r0` among them, holds what was last written to it, and a write
to one leaves the others alone. -/
def Obligations.EveryRegisterHoldsWhatWasLastWritten : Prop :=
  ∀ (s : State) (i j : Gpr) (v : Doubleword),
    (s.setGpr i v).gpr i = v ∧ (i ≠ j → (s.setGpr i v).gpr j = s.gpr j)

/-- R31, up to 0xFFFFFFF8 for 8 bytes and 0xFFFFFFFC for 4: in an 8-byte read the byte at `addr + i` supplies bits
`[63 - 8i : 56 - 8i]`; in a 4-byte read the bits `[31 - 8i : 24 - 8i]`. That the byte addresses wrap above those addresses
is the model's choice (log 29, DESIGN CHOICE). -/
def Obligations.ReadAssemblesBytesMostSignificantFirst : Prop :=
  ∀ (m : Memory) (addr : Addr),
    HoldsBytesAt m addr (m.read8 addr) ∧
    ∀ i : Nat, i < 4 → (m.read4 addr).extractLsb' (24 - 8 * i) 8 = m.byteAt (addr + BitVec.ofNat 32 i)

/-- R32, up to EA = 0xFFFFFFF8: a 4-byte big-endian read at EA sees the upper half of the doubleword at EA, and one at
EA + 4 the lower half. That it holds above, where the byte addresses wrap, is the model's choice (log 29, DESIGN
CHOICE). -/
def Obligations.WordReadsAreHalvesOfDoublewordRead : Prop :=
  ∀ (m : Memory) (ea : Addr),
    m.read4 ea = (m.read8 ea).extractLsb' 32 32 ∧ m.read4 (ea + 4) = (m.read8 ea).extractLsb' 0 32

/-- R18, over the model's canonical form (log 3): memory is an array of bytes: a byte written is the byte read, and every other byte stays. -/
def Obligations.ByteWrittenIsByteReadElsewhereUnchanged : Prop :=
  ∀ (m : Memory) (a b : Addr) (v : Byte), m.wf = true →
    (m.setByte a v).byteAt b = if b = a then v else m.byteAt b

/-- R7, over the model's canonical form (log 3): a doubleword stored by `MemWrite` below the top of the space is read back whole, and every byte outside its
eight stays. -/
def Obligations.DoublewordWrittenIsDoublewordRead : Prop :=
  ∀ (m : Memory) (a : Addr) (v : Doubleword), m.wf = true → a.toNat ≤ 0xFFFFFFF8 →
    (m.write8 a v).read8 a = v ∧
    ∀ b : Addr, (b.toNat < a.toNat ∨ a.toNat + 8 ≤ b.toNat) → (m.write8 a v).byteAt b = m.byteAt b

/-- The canonical form (log 3): two memories in it that read alike at every address are equal. -/
def Obligations.CanonicalMemoriesThatReadAlikeAreEqual : Prop :=
  ∀ m n : Memory, m.wf = true → n.wf = true → (∀ a : Addr, m.byteAt a = n.byteAt a) → m = n

/-- R18, R20 (the spec's decision D18, log 3): every contents `MEM0` of the byte array is some memory in canonical form: the model fixes nothing of it. -/
def Obligations.EveryMemoryContentsIsRepresented : Prop :=
  ∀ f : Addr → Byte, ∃ m : Memory, m.wf = true ∧ ∀ a : Addr, m.byteAt a = f a

/-- R39, the spec's decision D3 (log 4): `Admit` is open: every predicate on data addresses (for 8 bytes) and every predicate on fetch addresses (for 4
bytes) is the `Admit` of some platform. -/
def Obligations.EveryAdmitPredicateIsRepresented : Prop :=
  ∀ f g : Addr → Bool, ∃ map : List Window, ∀ (s : State) (a : Addr), s.platform.admitMap = map →
    s.admits a 8 .data = f a ∧ s.admits a 4 .fetch = g a

/-! ### The four instructions (40_load_doubleword.md) -/

/-- R71: `ld` reads at the low 32 bits of (RA|0) + ds and puts the eight bytes, big-endian, in RT. It completes wherever
the eight bytes may be read and the pc can advance, whatever the alignment of the address (R34, log 31). -/
def Obligations.LdLoadsDoublewordAtBasePlusDisplacement : Prop :=
  ∀ (s : State) (rt ra : Gpr) (ds : Int) (ea : Addr),
    (ea.toNat : Int) = ((if ra = 0 then 0 else ((s.gpr ra).toNat : Int)) + ds) % 2 ^ 32 → CanLoad s ea →
    ∃ t, exec (.ld rt ds ra) s = .next t ∧ HoldsBytesAt s.mem ea (t.gpr rt) ∧ t.pc = s.pc + 4 ∧ SameExcept [rt] s t

/-- R72: a valid `ldu` reads at the low 32 bits of RA + ds, puts the eight bytes in RT and the zero-extended address in
RA. (That the upper half of RA becomes 0 is R72's; of the chip it is unverified, log 7.) -/
def Obligations.LduLoadsDoublewordAndUpdatesBase : Prop :=
  ∀ (s : State) (rt ra : Gpr) (ds : Int) (ea : Addr), ra ≠ 0 → ra ≠ rt →
    (ea.toNat : Int) = (((s.gpr ra).toNat : Int) + ds) % 2 ^ 32 → CanLoad s ea →
    ∃ t, exec (.ldu rt ds ra) s = .next t ∧ HoldsBytesAt s.mem ea (t.gpr rt) ∧ (t.gpr ra).toNat = ea.toNat ∧
      t.pc = s.pc + 4 ∧ SameExcept [rt, ra] s t

/-- R73: a valid `ldux` reads at the low 32 bits of RA + RB, puts the eight bytes in RT and the zero-extended address in
RA; RB names `r0` when its field is 0. (Of the chip the upper half of RA is unverified, log 7.) -/
def Obligations.LduxLoadsDoublewordAndUpdatesBase : Prop :=
  ∀ (s : State) (rt ra rb : Gpr) (ea : Addr), ra ≠ 0 → ra ≠ rt →
    ea.toNat = ((s.gpr ra).toNat + (s.gpr rb).toNat) % 2 ^ 32 → CanLoad s ea →
    ∃ t, exec (.ldux rt ra rb) s = .next t ∧ HoldsBytesAt s.mem ea (t.gpr rt) ∧ (t.gpr ra).toNat = ea.toNat ∧
      t.pc = s.pc + 4 ∧ SameExcept [rt, ra] s t

/-- R74: `ldx` reads at the low 32 bits of (RA|0) + RB and puts the eight bytes in RT; field value 0 is the constant 0 for
RA and `r0` for RB. -/
def Obligations.LdxLoadsDoublewordAtBasePlusIndex : Prop :=
  ∀ (s : State) (rt ra rb : Gpr) (ea : Addr),
    ea.toNat = ((if ra = 0 then 0 else (s.gpr ra).toNat) + (s.gpr rb).toNat) % 2 ^ 32 → CanLoad s ea →
    ∃ t, exec (.ldx rt ra rb) s = .next t ∧ HoldsBytesAt s.mem ea (t.gpr rt) ∧ t.pc = s.pc + 4 ∧ SameExcept [rt] s t

/-- R75, with the argument of the spec's decision D4 (log 5) at `snapshot`: under policy `snapshot` every `ldu` and `ldux` runs as a valid one does: the base is `x[RA]` also for RA = 0, RT
is written first and RA second, so with RA = RT the register ends as the zero-extended address; memory is still read, so
`TopOfSpace` and `NotAdmitted` can still refuse. When they do is the spec's decisions D2 (log 6) and D3 (log 4), and the
upper half of RA is unverified of the chip (log 7). -/
def Obligations.SnapshotPolicyRunsInvalidForms : Prop :=
  ∀ (s : State) (i : Instr) (rt ra : Gpr) (addend ea : Nat), s.platform.policy = .snapshot →
    ((∃ ds : Int, i = .ldu rt ds ra ∧ (addend : Int) = ds % 2 ^ 64) ∨
      (∃ rb : Gpr, i = .ldux rt ra rb ∧ addend = (s.gpr rb).toNat)) →
    (ra = 0 ∨ ra = rt) → ea = ((s.gpr ra).toNat + addend) % 2 ^ 32 →
    (0xFFFFFFF8 < ea → exec i s = .refused .topOfSpace) ∧
    (ea ≤ 0xFFFFFFF8 → s.admits (BitVec.ofNat 32 ea) 8 .data = false → exec i s = .refused .notAdmitted) ∧
    (CanLoad s (BitVec.ofNat 32 ea) →
      ∃ t, exec i s = .next t ∧ (t.gpr ra).toNat = ea ∧
        (ra ≠ rt → HoldsBytesAt s.mem (BitVec.ofNat 32 ea) (t.gpr rt)) ∧
        t.pc = s.pc + 4 ∧ SameExcept [rt, ra] s t)

/-- R78: RT receives all 64 bits from memory, with no extension, and no bit of its old value survives; the one
zero-extension is that of the address written to RA (of the chip it is unverified, log 7). -/
def Obligations.TargetReceivesAllBitsFromMemory : Prop :=
  (∀ (i : Instr) (s t : State), exec i s = .next t →
    (updatedGpr i ≠ some (targetGpr i) → t.gpr (targetGpr i) = s.mem.read8 (effectiveAddress i s)) ∧
    (∀ ra, updatedGpr i = some ra → t.gpr ra = (effectiveAddress i s).setWidth 64)) ∧
  (∀ (i : Instr) (s : State) (v : Doubleword), targetGpr i ∉ readGprs i →
    exec i (s.setGpr (targetGpr i) v) = exec i s)

/-- R34, which infers it for `ldu`, `ldux` and `ldx` from their interpreter bodies (log 31, DEDUCED): none of the four
needs an aligned address: wherever the eight bytes may be read and the pc can advance, the
instruction completes with the bytes of R31; and each of the four meets every alignment. -/
def Obligations.EveryAlignmentIsReadByAllFour : Prop :=
  (∀ (i : Instr) (s : State), FormRuns i s → CanLoad s (effectiveAddress i s) →
    ∃ t, exec i s = .next t ∧
      (updatedGpr i ≠ some (targetGpr i) → HoldsBytesAt s.mem (effectiveAddress i s) (t.gpr (targetGpr i)))) ∧
  (∀ (m : Mnemonic) (n : Nat), n < 8 →
    ∃ (i : Instr) (s : State), i.mnemonic = m ∧ i.wellFormed = true ∧ FormRuns i s ∧
      (effectiveAddress i s).toNat % 8 = n ∧ CanLoad s (effectiveAddress i s))

/-- R12: an instruction writes the registers of its row of the table and no other, and what it does depends on no other
register than the row's: two states with the same pc, memory and platform that agree on the registers read are refused
alike, or both complete with the same values in the registers written. -/
def Obligations.InstructionReadsAndWritesOnlyItsRegisters : Prop :=
  ∀ (i : Instr) (s s' : State), s'.pc = s.pc → s'.mem = s.mem → s'.platform = s.platform →
    (∀ r, r ∈ readGprs i → s'.gpr r = s.gpr r) →
    (∀ r, exec i s = .refused r → exec i s' = .refused r) ∧
    (∀ t, exec i s = .next t →
      SameExcept (writtenGprs i) s t ∧
      ∃ t', exec i s' = .next t' ∧ t'.pc = t.pc ∧ ∀ r, r ∈ writtenGprs i → t'.gpr r = t.gpr r)

/-- R61, the spec's decision D4 (log 5): under policy `refuse` an `ldu` or `ldux` with RA = 0 or RA = RT is refused, whatever the registers, memory and
pc hold; nothing else is ever refused with that reason. -/
def Obligations.InvalidFormsAreExactlyWhatInvalidFormRefuses : Prop :=
  ∀ (s : State) (i : Instr),
    exec i s = .refused .invalidForm ↔
      s.platform.policy = .refuse ∧
        ∃ (rt ra : Gpr), (ra = 0 ∨ ra = rt) ∧ ((∃ ds, i = .ldu rt ds ra) ∨ (∃ rb, i = .ldux rt ra rb))

/-- R38, the spec's decision D2 (log 6): a read whose last byte lies beyond the top of the space is refused, and the greatest address that can be read is
0xFFFFFFF8. -/
def Obligations.ReadBeyondTopOfSpaceIsRefused : Prop :=
  ∀ (i : Instr) (s : State), FormRuns i s →
    ((effectiveAddress i s).toNat + 7 ≥ 2 ^ 32 → exec i s = .refused .topOfSpace) ∧
    (exec i s = .refused .topOfSpace → 0xFFFFFFF8 < (effectiveAddress i s).toNat) ∧
    (effectiveAddress i s = 0xFFFFFFF8#32 → s.admits 0xFFFFFFF8#32 8 .data = true → s.pc ≠ 0xFFFFFFFC#32 →
      ∃ t, exec i s = .next t)

/-- R39, the spec's decision D3 (log 4): an instruction is fetched only where `Admit(pc, 4, fetch)` holds, and data is read only where
`Admit(EA, 8, data)` holds; otherwise the step is refused. `Admit` is fixed for a run. -/
def Obligations.AccessNotAdmittedIsRefused : Prop :=
  ∀ s : State,
    (s.pc.toNat % 4 = 0 → s.admits s.pc 4 .fetch = false → step s = .refused .notAdmitted) ∧
    (∀ i : Instr, CanFetch s → decodeWord (fetchWord s) = .ok i → FormRuns i s →
      (effectiveAddress i s).toNat ≤ 0xFFFFFFF8 → s.admits (effectiveAddress i s) 8 .data = false →
      step s = .refused .notAdmitted) ∧
    (∀ t : State, step s = .next t →
      s.admits s.pc 4 .fetch = true ∧
      (∃ i, decodeWord (fetchWord s) = .ok i ∧ s.admits (effectiveAddress i s) 8 .data = true) ∧
      ∀ a n kind, t.admits a n kind = s.admits a n kind)

/-- R76, which the spec derives from the interpreter bodies (log 7): the effective address is the sum of the low 32 bits of the two addends, modulo 2^32. -/
def Obligations.EffectiveAddressIsSumOfLowHalves : Prop :=
  ∀ (s : State) (rt ra rb : Gpr) (ds : Int),
    ((effectiveAddress (.ld rt ds ra) s).toNat : Int) =
      ((base0 s ra).toNat % 2 ^ 32 + ds % 2 ^ 32) % 2 ^ 32 ∧
    ((effectiveAddress (.ldu rt ds ra) s).toNat : Int) =
      ((s.gpr ra).toNat % 2 ^ 32 + ds % 2 ^ 32) % 2 ^ 32 ∧
    (effectiveAddress (.ldux rt ra rb) s).toNat =
      ((s.gpr ra).toNat % 2 ^ 32 + (s.gpr rb).toNat % 2 ^ 32) % 2 ^ 32 ∧
    (effectiveAddress (.ldx rt ra rb) s).toNat =
      ((base0 s ra).toNat % 2 ^ 32 + (s.gpr rb).toNat % 2 ^ 32) % 2 ^ 32

/-- R55: with RA field 0, `ld` and `ldx` do not depend on `r0`: another value in `r0` gives the same outcome, with that
other value still in `r0` (unless RT is `r0`; RB must not be `r0`). -/
def Obligations.ZeroBaseFormsDoNotReadRegisterZero : Prop :=
  ∀ (s : State) (rt rb : Gpr) (ds : Int) (v : Doubleword) (i : Instr), rt ≠ 0 → rb ≠ 0 →
    (i = .ld rt ds 0 ∨ i = .ldx rt 0 rb) →
    (∀ t, exec i s = .next t → exec i (s.setGpr 0 v) = .next (t.setGpr 0 v)) ∧
    (∀ r, exec i s = .refused r → exec i (s.setGpr 0 v) = .refused r)

/-- Laws 5 and 6 of 95_test_vectors.md 2.6, from R71, R74 and R76: base and index of `ldx` commute where neither is field
0, and `ld` is `ldx` with an index register whose low half is the displacement's. -/
def Obligations.IndexedAndDisplacementFormsAgree : Prop :=
  ∀ (s : State) (rt ra rb : Gpr) (ds : Int),
    (ra ≠ 0 → rb ≠ 0 → exec (.ldx rt ra rb) s = exec (.ldx rt rb ra) s) ∧
    (((s.gpr rb).toNat : Int) % 2 ^ 32 = ds % 2 ^ 32 → exec (.ld rt ds ra) s = exec (.ldx rt ra rb) s)

/-- R71 to R74: where RA is neither 0 nor RT, an update form does what the plain form does and then writes the address to
RA (its upper half is unverified of the chip, log 7). -/
def Obligations.UpdateFormIsPlainFormThenBaseUpdate : Prop :=
  ∀ (s t : State) (rt ra rb : Gpr) (ds : Int), ra ≠ 0 → ra ≠ rt →
    (exec (.ld rt ds ra) s = .next t →
      exec (.ldu rt ds ra) s = .next (t.setGpr ra ((effectiveAddress (.ld rt ds ra) s).setWidth 64))) ∧
    (exec (.ldx rt ra rb) s = .next t →
      exec (.ldux rt ra rb) s = .next (t.setGpr ra ((effectiveAddress (.ldx rt ra rb) s).setWidth 64)))

/-- R113 (the spec's decision D23, log 23) and R77: an instruction sees every register that the one just before it
loaded or updated. For any two of the four in a row, the second reads at the address formed from the registers as the
first leaves them (RT loaded, for `ldu` and `ldux` RA updated, log 7), be it through its base or its index, and writes
that address to its own RA if it is an update form. -/
def Obligations.LoadSeesRegisterLoadedJustBefore : Prop :=
  ∀ (i j : Instr) (s t u : State) (a : Addr),
    exec i s = .next t → exec j t = .next u → (a.toNat : Int) = addressFrom (gprAfter i s) j →
    (updatedGpr j ≠ some (targetGpr j) → HoldsBytesAt s.mem a (u.gpr (targetGpr j))) ∧
    (∀ r, updatedGpr j = some r → (u.gpr r).toNat = a.toNat)

/-! ### The step (40_load_doubleword.md R70, 60_exceptions.md) -/

/-- R70: where the word at the program counter can be fetched and decodes to a well-formed instruction, the step is that
instruction's meaning and adds nothing around it. -/
def Obligations.StepRunsTheDecodedInstruction : Prop :=
  ∀ (s : State) (i : Instr), CanFetch s → decodeWord (fetchWord s) = .ok i → i.wellFormed = true → step s = exec i s

/-- R33 (the spec's decision D7, log 8), R70: a word placed at the program counter is the word the next step fetches, decodes and runs. -/
def Obligations.WordPlacedAtPcIsWhatStepRuns : Prop :=
  ∀ (s : State) (w : Word), s.mem.wf = true → CanFetch s →
    fetchWord (s.withFetchWord 32 w.toNat) = w ∧
    (∀ i, decodeWord w = .ok i → step (s.withFetchWord 32 w.toNat) = exec i (s.withFetchWord 32 w.toNat)) ∧
    (∀ b : Addr, (b.toNat < s.pc.toNat ∨ s.pc.toNat + 4 ≤ b.toNat) →
      (s.withFetchWord 32 w.toNat).mem.byteAt b = s.mem.byteAt b)

/-- R94, the spec's decision D15 (log 15): the order of the refusal tests, so that exactly one reason is reported; and where none of the seven tests fails,
the step gives a next state. -/
def Obligations.RefusalTestsComeInTheirOrder : Prop :=
  ∀ s : State,
    (s.pc.toNat % 4 ≠ 0 → step s = .refused .fetchMisaligned) ∧
    (s.pc.toNat % 4 = 0 → s.admits s.pc 4 .fetch = false → step s = .refused .notAdmitted) ∧
    (CanFetch s → decodeWord (fetchWord s) = .error .notInScope → step s = .refused .notInScope) ∧
    (CanFetch s → decodeWord (fetchWord s) = .error .reservedEncoding → step s = .refused .reservedEncoding) ∧
    ∀ i : Instr, CanFetch s → decodeWord (fetchWord s) = .ok i →
      (¬ FormRuns i s → step s = .refused .invalidForm) ∧
      (FormRuns i s → 0xFFFFFFF8 < (effectiveAddress i s).toNat → step s = .refused .topOfSpace) ∧
      (FormRuns i s → (effectiveAddress i s).toNat ≤ 0xFFFFFFF8 → s.admits (effectiveAddress i s) 8 .data = false →
        step s = .refused .notAdmitted) ∧
      (FormRuns i s → (effectiveAddress i s).toNat ≤ 0xFFFFFFF8 → s.admits (effectiveAddress i s) 8 .data = true →
        s.pc = 0xFFFFFFFC#32 → step s = .refused .pcOverflow) ∧
      (FormRuns i s → CanLoad s (effectiveAddress i s) → ∃ t, step s = .next t)

/-- R59, R60, R62, the spec's decisions D5, D6, D24 (log 20): primary opcode 58 with XO 2 or 3, and an `ldx` or `ldux` word with Rc = 1, are refused as reserved; any
other word outside the four rows is refused as out of scope. -/
def Obligations.WordsOutsideTheFourRowsAreRefusedByName : Prop :=
  ∀ s : State, CanFetch s →
    (fetchWord s &&& 0xFC000002#32 = 0xE8000002#32 → step s = .refused .reservedEncoding) ∧
    (fetchWord s &&& 0xFC0007FF#32 = 0x7C00002B#32 → step s = .refused .reservedEncoding) ∧
    (fetchWord s &&& 0xFC0007FF#32 = 0x7C00006B#32 → step s = .refused .reservedEncoding) ∧
    (fetchWord s &&& 0xFC000000#32 ≠ 0xE8000000#32 →
      ¬ (fetchWord s &&& 0xFC000000#32 = 0x7C000000#32 ∧
        (fetchWord s &&& 0x7FE#32 = 0x2A#32 ∨ fetchWord s &&& 0x7FE#32 = 0x6A#32)) →
      step s = .refused .notInScope)

/-- R14, the spec's decisions D8 and D9 (logs 9 and 10): the program counter must be a multiple of 4 for a fetch, and a step at 0xFFFFFFFC is refused instead of wrapping:
it never gives a next state, and it is refused with `PcOverflow` where nothing else refuses it. -/
def Obligations.StepNeverWrapsProgramCounter : Prop :=
  (∀ s t : State, step s = .next t → s.pc.toNat % 4 = 0 ∧ t.pc.toNat = s.pc.toNat + 4) ∧
  (∀ (s : State) (i : Instr), s.pc = 0xFFFFFFFC#32 → s.admits s.pc 4 .fetch = true →
    decodeWord (fetchWord s) = .ok i → FormRuns i s → (effectiveAddress i s).toNat ≤ 0xFFFFFFF8 →
    s.admits (effectiveAddress i s) 8 .data = true → step s = .refused .pcOverflow)

/-- R19: a step changes the register named by RT, for `ldu` and `ldux` also the one named by RA, and pc, and nothing
else. -/
def Obligations.StepChangesOnlyTargetBaseAndPc : Prop :=
  ∀ s t : State, step s = .next t →
    ∃ i, decodeWord (fetchWord s) = .ok i ∧ SameExcept (writtenGprs i) s t ∧ t.pc = s.pc + 4

/-- R8 (the spec's decision D15, log 15), R90: every step gives a next state or is refused for one of the seven reasons of
R8's closed list, so it neither faults nor answers that an instruction is not modelled; and each of the seven, and a next
state, is the outcome of some step. -/
def Obligations.EveryStepCompletesOrIsRefusedForAListedReason : Prop :=
  (∀ s : State, (∃ t, step s = .next t) ∨
    step s = .refused .notInScope ∨ step s = .refused .reservedEncoding ∨ step s = .refused .invalidForm ∨
    step s = .refused .topOfSpace ∨ step s = .refused .notAdmitted ∨ step s = .refused .fetchMisaligned ∨
    step s = .refused .pcOverflow) ∧
  (∃ s t, step s = .next t) ∧
  (∃ s, step s = .refused .notInScope) ∧ (∃ s, step s = .refused .reservedEncoding) ∧
  (∃ s, step s = .refused .invalidForm) ∧ (∃ s, step s = .refused .topOfSpace) ∧
  (∃ s, step s = .refused .notAdmitted) ∧ (∃ s, step s = .refused .fetchMisaligned) ∧
  (∃ s, step s = .refused .pcOverflow)

/-! ### The invariant and runs (70_reset_and_hazards.md) -/

/-- Every step keeps the invariant: the pc stays a multiple of 4 (R35, the spec's decision D8) and memory in its canonical form (log 3). -/
def Obligations.EveryStepKeepsTheInvariant : Prop :=
  ∀ s t : State, s.Inv → step s = .next t → t.Inv

/-- The reset state has the invariant: its pc 0 and its empty memory are the model's choice (logs 2 and 3). -/
def Obligations.ResetStateHasTheInvariant : Prop := State.reset.Inv

/-- R35, the spec's decision D8 (log 9): a misaligned program counter is refused, and a run that starts at an aligned one never meets the case. -/
def Obligations.AlignedRunNeverRefusesForMisalignment : Prop :=
  (∀ s : State, s.pc.toNat % 4 ≠ 0 → step s = .refused .fetchMisaligned) ∧
  (∀ (k : Nat) (s t : State), s.pc.toNat % 4 = 0 → stepsTo k s = some t → step t ≠ .refused .fetchMisaligned)

/-- R79, and the spec's decisions D12, D14, D9 in R42, R45, R14: after k steps the program counter is 4k further on, without wrapping, and memory, the flags, the
other register files and the platform are as at the start. So no run takes 2^30 steps. -/
def Obligations.RunIsStraightLineOverUnchangedMemory : Prop :=
  ∀ (k : Nat) (s t : State), stepsTo k s = some t →
    t.pc.toNat = s.pc.toNat + 4 * k ∧ t.mem = s.mem ∧ SameFlags s t ∧ t.fprFile = s.fprFile ∧ t.vrFile = s.vrFile ∧
    t.platform = s.platform ∧ k < 2 ^ 30

/-- R111, R42, the spec's decisions D18 and D12 (logs 12 and 24): a run from a launch state that holds a program takes the program's words one by one in order. -/
def Obligations.LaunchedProgramRunsInOrder : Prop :=
  ∀ (program : List Word) (s t : State) (k : Nat) (w : Word), LaunchOk program s → program[k]? = some w →
    stepsTo k s = some t →
    (∀ i, decodeWord w = .ok i → step t = exec i t) ∧
    (decodeWord w = .error .notInScope → step t = .refused .notInScope) ∧
    (decodeWord w = .error .reservedEncoding → step t = .refused .reservedEncoding)

/-- R112, R77, R95, the spec's decisions D21 and D15 (logs 15 and 22): a state of which `HALT` holds takes no further step and is a normal end; a run that is refused stands
at the state before the refused step, of which `HALT` does not hold. -/
def Obligations.RunEndsAtHaltOrStandsAtRefusedStep : Prop :=
  ∀ (halt : State → Bool) (k : Nat) (s t : State) (r : Refusal),
    (halt s = true → runUntil halt k s = .ended s) ∧
    (runUntil halt k s = .ended t → halt t = true ∧ ∃ j, j ≤ k ∧ stepsTo j s = some t) ∧
    (runUntil halt k s = .refused r t →
      halt t = false ∧ step t = .refused r ∧ ∃ j, j < k ∧ stepsTo j s = some t) ∧
    (runUntil halt k s = .running t → halt t = false ∧ stepsTo k s = some t)

/-- R76 (derived by the spec) and 93_implementation_defined.md U6: no run depends on the upper halves of the registers: two states that differ only there go through the same
program counters and the same refusals, and their registers keep the same lower halves. -/
def Obligations.UpperHalvesOfRegistersNeverSteerARun : Prop :=
  ∀ (k : Nat) (s s' : State), LowHalvesAgree s s' →
    (∀ t, stepsTo k s = some t → ∃ t', stepsTo k s' = some t' ∧ LowHalvesAgree t t') ∧
    (∀ t r, stepsTo k s = some t → step t = .refused r →
      ∃ t', stepsTo k s' = some t' ∧ step t' = .refused r)
end

