-- ==== Sys2Proof/Laws/State.lean ====
section
/-! SUPPORT. One lemma per field per update of the state, so that no later proof unfolds a record update, and the two
laws of the register file's read. -/

namespace Sys2Proof.Machine

/-! ### `setGpr` -/

@[simp] theorem setGpr_gprs (s : State) (i : Gpr) (v : Doubleword) : (s.setGpr i v).gprs = s.gprs.set i v := rfl
@[simp] theorem setGpr_pc (s : State) (i : Gpr) (v : Doubleword) : (s.setGpr i v).pc = s.pc := rfl
@[simp] theorem setGpr_mem (s : State) (i : Gpr) (v : Doubleword) : (s.setGpr i v).mem = s.mem := rfl
@[simp] theorem setGpr_cr (s : State) (i : Gpr) (v : Doubleword) : (s.setGpr i v).cr = s.cr := rfl
@[simp] theorem setGpr_xer (s : State) (i : Gpr) (v : Doubleword) : (s.setGpr i v).xer = s.xer := rfl
@[simp] theorem setGpr_fprFile (s : State) (i : Gpr) (v : Doubleword) : (s.setGpr i v).fprFile = s.fprFile := rfl
@[simp] theorem setGpr_vrFile (s : State) (i : Gpr) (v : Doubleword) : (s.setGpr i v).vrFile = s.vrFile := rfl
@[simp] theorem setGpr_platform (s : State) (i : Gpr) (v : Doubleword) : (s.setGpr i v).platform = s.platform := rfl

/-! ### `setPc` -/

@[simp] theorem setPc_gprs (s : State) (t : Addr) : (s.setPc t).gprs = s.gprs := rfl
@[simp] theorem setPc_pc (s : State) (t : Addr) : (s.setPc t).pc = t := rfl
@[simp] theorem setPc_mem (s : State) (t : Addr) : (s.setPc t).mem = s.mem := rfl
@[simp] theorem setPc_cr (s : State) (t : Addr) : (s.setPc t).cr = s.cr := rfl
@[simp] theorem setPc_xer (s : State) (t : Addr) : (s.setPc t).xer = s.xer := rfl
@[simp] theorem setPc_fprFile (s : State) (t : Addr) : (s.setPc t).fprFile = s.fprFile := rfl
@[simp] theorem setPc_vrFile (s : State) (t : Addr) : (s.setPc t).vrFile = s.vrFile := rfl
@[simp] theorem setPc_platform (s : State) (t : Addr) : (s.setPc t).platform = s.platform := rfl
@[simp] theorem setPc_gpr (s : State) (t : Addr) (i : Gpr) : (s.setPc t).gpr i = s.gpr i := rfl

/-! ### `placeWordAtPc` -/

@[simp] theorem placeWordAtPc_gprs (s : State) (n w : Nat) : (placeWordAtPc s n w).gprs = s.gprs := rfl
@[simp] theorem placeWordAtPc_pc (s : State) (n w : Nat) : (placeWordAtPc s n w).pc = s.pc := rfl
@[simp] theorem placeWordAtPc_mem (s : State) (n w : Nat) :
    (placeWordAtPc s n w).mem = s.mem.write4 s.pc (BitVec.ofNat 32 (w % 2 ^ n)) := rfl
@[simp] theorem placeWordAtPc_cr (s : State) (n w : Nat) : (placeWordAtPc s n w).cr = s.cr := rfl
@[simp] theorem placeWordAtPc_xer (s : State) (n w : Nat) : (placeWordAtPc s n w).xer = s.xer := rfl
@[simp] theorem placeWordAtPc_fprFile (s : State) (n w : Nat) : (placeWordAtPc s n w).fprFile = s.fprFile := rfl
@[simp] theorem placeWordAtPc_vrFile (s : State) (n w : Nat) : (placeWordAtPc s n w).vrFile = s.vrFile := rfl
@[simp] theorem placeWordAtPc_platform (s : State) (n w : Nat) : (placeWordAtPc s n w).platform = s.platform := rfl

/-! ### `admits` reads the platform alone -/

@[simp] theorem setGpr_admits (s : State) (i : Gpr) (v : Doubleword) (a : Addr) (n : Nat) (k : AccessKind) :
    (s.setGpr i v).admits a n k = s.admits a n k := by
  simp [State.admits]
@[simp] theorem setPc_admits (s : State) (t a : Addr) (n : Nat) (k : AccessKind) :
    (s.setPc t).admits a n k = s.admits a n k := by
  simp [State.admits]
@[simp] theorem placeWordAtPc_admits (s : State) (m w : Nat) (a : Addr) (n : Nat) (k : AccessKind) :
    (placeWordAtPc s m w).admits a n k = s.admits a n k := by
  simp [State.admits]

end Sys2Proof.Machine
end

