-- ==== Sys2Proof/Laws/Memory.lean ====
section
/-! SUPPORT. Every memory operation keeps the canonical form (log 3). -/

namespace Sys2Proof.Machine

/-- The canonical form from a bound, read off entry by entry. -/
theorem wfFrom_cons_iff (low k : Nat) (v : Byte) (m : Memory) :
    Memory.wfFrom low ((k, v) :: m) = true ↔
      low ≤ k ∧ k < 2 ^ 32 ∧ v ≠ Memory.unlisted ∧ Memory.wfFrom (k + 1) m = true := by
  simp [Memory.wfFrom, and_assoc]

/-- A bound may be lowered. -/
theorem wfFrom_of_le {low low' : Nat} {m : Memory} (h : Memory.wfFrom low m = true) (hle : low' ≤ low) :
    Memory.wfFrom low' m = true := by
  cases m with
  | nil => rfl
  | cons e m =>
    obtain ⟨k, v⟩ := e
    rw [wfFrom_cons_iff] at h ⊢
    exact ⟨hle.trans h.1, h.2⟩

/-- Storing a byte keeps the canonical form, and keeps every bound below the stored key. -/
theorem store_wfFrom {low a : Nat} {m : Memory} (b : Byte) (h : Memory.wfFrom low m = true) (hlow : low ≤ a)
    (ha : a < 2 ^ 32) : Memory.wfFrom low (m.store a b) = true := by
  induction m generalizing low with
  | nil =>
    by_cases hb : b = Memory.unlisted
    · simp [Memory.store, hb, Memory.wfFrom]
    · simp only [Memory.store, hb, if_false, wfFrom_cons_iff]
      exact ⟨hlow, ha, hb, rfl⟩
  | cons e m ih =>
    obtain ⟨k, v⟩ := e
    rw [wfFrom_cons_iff] at h
    obtain ⟨hk, hk32, hv, hm⟩ := h
    simp only [Memory.store]
    split
    · next hka => exact (wfFrom_cons_iff ..).2 ⟨hk, hk32, hv, ih hm hka⟩
    · next hka =>
      split
      · next heq =>
        subst heq
        split
        · exact wfFrom_of_le hm (by omega)
        · next hb => exact (wfFrom_cons_iff ..).2 ⟨hlow, ha, hb, hm⟩
      · next hne =>
        split
        · exact (wfFrom_cons_iff ..).2 ⟨hk, hk32, hv, hm⟩
        · next hb =>
          exact (wfFrom_cons_iff ..).2 ⟨hlow, ha, hb, (wfFrom_cons_iff ..).2 ⟨by omega, hk32, hv, hm⟩⟩

/-- Writing one byte keeps the canonical form. -/
theorem setByte_wf {m : Memory} (a : Addr) (b : Byte) (h : m.wf = true) : (m.setByte a b).wf = true :=
  store_wfFrom b h (Nat.zero_le _) a.isLt

/-- Writing bytes at ascending addresses keeps the canonical form. -/
theorem setBytes_wf {m : Memory} (a : Addr) (bs : List Byte) (h : m.wf = true) : (m.setBytes a bs).wf = true := by
  induction bs generalizing m a with
  | nil => exact h
  | cons b bs ih => exact ih (a + 1) (setByte_wf a b h)

/-- `MemWrite(addr, 8, v)` keeps the canonical form. -/
theorem write8_wf {m : Memory} (a : Addr) (v : Doubleword) (h : m.wf = true) : (m.write8 a v).wf = true :=
  setBytes_wf a _ h

/-- `MemWrite(addr, 4, v)` keeps the canonical form. -/
theorem write4_wf {m : Memory} (a : Addr) (v : Word) (h : m.wf = true) : (m.write4 a v).wf = true :=
  setBytes_wf a _ h

/-- Placing a word at the program counter keeps the canonical form. -/
theorem withFetchWord_wf {s : State} (n w : Nat) (h : s.mem.wf = true) : (s.withFetchWord n w).mem.wf = true :=
  write4_wf s.pc _ h

/-- The memory of the reset state is in canonical form. -/
theorem reset_mem_wf : State.reset.mem.wf = true := rfl

end Sys2Proof.Machine
end

