-- ==== Sys2Proof/Laws/Operands.lean ====
section
/-! SUPPORT. The operand forms, case by case (30_encoding.md R55, R61). -/

namespace Sys2Proof.Machine

/-- `RA0` with field value 0 is the constant zero. -/
@[simp] theorem base0_zero (s : State) : base0 s 0 = 0#64 := rfl

/-- `RA0` with another field value is the register. -/
theorem base0_of_ne_zero (s : State) {ra : Gpr} (h : ra ≠ 0) : base0 s ra = s.gpr ra := if_neg h

/-- When the policy refuses an update form. -/
theorem refusesForm_iff (s : State) (rt ra : Gpr) :
    refusesForm s rt ra = true ↔ s.platform.policy = .refuse ∧ (ra = 0 ∨ ra = rt) := by
  simp [refusesForm, isInvalidForm]

/-- When an update form runs. -/
theorem refusesForm_eq_false_iff (s : State) (rt ra : Gpr) :
    refusesForm s rt ra = false ↔ s.platform.policy = .snapshot ∨ (ra ≠ 0 ∧ ra ≠ rt) := by
  cases h : s.platform.policy <;> simp [refusesForm, isInvalidForm, h]

/-- The meaning of an update form that the policy refuses. -/
theorem execLdu_of_refuses {s : State} {rt ra : Gpr} (ds : Int) (h : refusesForm s rt ra = true) :
    execLdu rt ds ra s = .refused .invalidForm := by
  simp [execLdu, h]

/-- The meaning of an `ldu` that runs. -/
theorem execLdu_of_runs {s : State} {rt ra : Gpr} (ds : Int) (h : refusesForm s rt ra = false) :
    execLdu rt ds ra s = completeLoad s (eaLdu s ds ra) (writeTargetAndBase rt ra (eaLdu s ds ra)) := by
  simp [execLdu, h]

/-- The meaning of an indexed update form that the policy refuses. -/
theorem execLdux_of_refuses {s : State} {rt ra : Gpr} (rb : Gpr) (h : refusesForm s rt ra = true) :
    execLdux rt ra rb s = .refused .invalidForm := by
  simp [execLdux, h]

/-- The meaning of an `ldux` that runs. -/
theorem execLdux_of_runs {s : State} {rt ra : Gpr} (rb : Gpr) (h : refusesForm s rt ra = false) :
    execLdux rt ra rb s = completeLoad s (eaLdux s ra rb) (writeTargetAndBase rt ra (eaLdux s ra rb)) := by
  simp [execLdux, h]

end Sys2Proof.Machine
end

