-- ==== Sys2Proof/Laws/Ops.lean ====
section
/-! SUPPORT. For each shared operation, once, everything it can do. -/

namespace Sys2Proof.Machine

/-- What `load8` can do (40_load_doubleword.md R70). -/
theorem load8_cases (s : State) (ea : Addr) :
    (0xFFFFFFF8 < ea.toNat ∧ load8 s ea = .error .topOfSpace) ∨
    (ea.toNat ≤ 0xFFFFFFF8 ∧ s.admits ea 8 .data = false ∧ load8 s ea = .error .notAdmitted) ∨
    (ea.toNat ≤ 0xFFFFFFF8 ∧ s.admits ea 8 .data = true ∧ load8 s ea = .ok (s.mem.read8 ea)) := by
  unfold load8
  split
  · exact .inl ⟨‹_›, rfl⟩
  · split
    · exact .inr (.inl ⟨by omega, ‹_›, rfl⟩)
    · exact .inr (.inr ⟨by omega, by simpa using ‹¬ s.admits ea 8 .data = false›, rfl⟩)

/-- What `nextPc` can do (10_state.md R14). -/
theorem nextPc_cases (s : State) :
    (s.pc = 0xFFFFFFFC#32 ∧ nextPc s = .error .pcOverflow) ∨ (s.pc ≠ 0xFFFFFFFC#32 ∧ nextPc s = .ok (s.pc + 4)) := by
  unfold nextPc
  split
  · exact .inl ⟨‹_›, rfl⟩
  · exact .inr ⟨‹_›, rfl⟩

/-- What `completeLoad` can do: one of three refusals, in this order, or the register writes and then the pc
(40_load_doubleword.md R70, R77; 60_exceptions.md R94). -/
theorem completeLoad_cases (s : State) (ea : Addr) (writes : Doubleword → State → State) :
    (0xFFFFFFF8 < ea.toNat ∧ completeLoad s ea writes = .refused .topOfSpace) ∨
    (ea.toNat ≤ 0xFFFFFFF8 ∧ s.admits ea 8 .data = false ∧ completeLoad s ea writes = .refused .notAdmitted) ∨
    (ea.toNat ≤ 0xFFFFFFF8 ∧ s.admits ea 8 .data = true ∧ s.pc = 0xFFFFFFFC#32 ∧
      completeLoad s ea writes = .refused .pcOverflow) ∨
    (ea.toNat ≤ 0xFFFFFFF8 ∧ s.admits ea 8 .data = true ∧ s.pc ≠ 0xFFFFFFFC#32 ∧
      completeLoad s ea writes = .next ((writes (s.mem.read8 ea) s).setPc (s.pc + 4))) := by
  rcases load8_cases s ea with ⟨h, e⟩ | ⟨h, ha, e⟩ | ⟨h, ha, e⟩
  · exact .inl ⟨h, by simp [completeLoad, e]⟩
  · exact .inr (.inl ⟨h, ha, by simp [completeLoad, e]⟩)
  · rcases nextPc_cases s with ⟨hp, e'⟩ | ⟨hp, e'⟩
    · exact .inr (.inr (.inl ⟨h, ha, hp, by simp [completeLoad, e, e']⟩))
    · exact .inr (.inr (.inr ⟨h, ha, hp, by simp [completeLoad, e, e']⟩))

/-- If a load answers a next state, it is the state with the registers written and the pc advanced. -/
theorem completeLoad_next {s t : State} {ea : Addr} {writes : Doubleword → State → State}
    (h : completeLoad s ea writes = .next t) :
    ea.toNat ≤ 0xFFFFFFF8 ∧ s.admits ea 8 .data = true ∧ s.pc ≠ 0xFFFFFFFC#32 ∧
      t = (writes (s.mem.read8 ea) s).setPc (s.pc + 4) := by
  rcases completeLoad_cases s ea writes with ⟨_, e⟩ | ⟨_, _, e⟩ | ⟨_, _, _, e⟩ | ⟨h1, h2, h3, e⟩
  · simp [e] at h
  · simp [e] at h
  · simp [e] at h
  · rw [e] at h
    exact ⟨h1, h2, h3, by injection h with h; exact h.symm⟩

/-- What the fetch can do (40_load_doubleword.md R70, 60_exceptions.md R94). -/
theorem fetch_cases (s : State) :
    (s.pc.toNat % 4 ≠ 0 ∧ fetch s = .error .fetchMisaligned) ∨
    (s.pc.toNat % 4 = 0 ∧ s.admits s.pc 4 .fetch = false ∧ fetch s = .error .notAdmitted) ∨
    (s.pc.toNat % 4 = 0 ∧ s.admits s.pc 4 .fetch = true ∧
      ((∃ r, decodeWord (fetchWord s) = .error r ∧ fetch s = .error (refusalOfReject r)) ∨
        ∃ i, decodeWord (fetchWord s) = .ok i ∧ fetch s = .ok i)) := by
  unfold fetch
  split
  · exact .inl ⟨‹_›, rfl⟩
  · next hpc =>
    have hpc : s.pc.toNat % 4 = 0 := by simpa using hpc
    split
    · exact .inr (.inl ⟨hpc, ‹_›, rfl⟩)
    · next ha =>
      refine .inr (.inr ⟨hpc, by simpa using ha, ?_⟩)
      cases h : decodeWord (fetchWord s) with
      | error r => exact .inl ⟨r, rfl, rfl⟩
      | ok i => exact .inr ⟨i, rfl, rfl⟩

/-- What a step can do: the fetch's refusal, or the meaning of the fetched instruction. -/
theorem step_cases (s : State) :
    (∃ r, fetch s = .error r ∧ step s = .refused r) ∨ (∃ i, fetch s = .ok i ∧ step s = exec i s) := by
  unfold step
  cases h : fetch s with
  | error r => exact .inl ⟨r, rfl, rfl⟩
  | ok i => exact .inr ⟨i, rfl, rfl⟩

/-- The register writes of the plain forms. -/
theorem writeTarget_eq (rt : Gpr) (v : Doubleword) (s : State) : writeTarget rt v s = s.setGpr rt v := rfl

/-- The register writes of the update forms, RT first. -/
theorem writeTargetAndBase_eq (rt ra : Gpr) (ea : Addr) (v : Doubleword) (s : State) :
    writeTargetAndBase rt ra ea v s = (s.setGpr rt v).setGpr ra (updateValue ea) := rfl

end Sys2Proof.Machine
end

