-- ==== Sys2Proof/Laws/PerInstr.lean ====
section
/-! SUPPORT. Per-instruction families: the statement of each about an instruction as syntax, one lemma per constructor
of `Instr`. -/

namespace Sys2Proof.Laws

/-- An instruction's word carries its primary opcode (30_encoding.md R51, R52). -/
def PrimaryOpcode.Statement (i : Instr) : Prop :=
  fieldOPCD (encodeWord i) = match i.mnemonic with
    | .ld | .ldu => 58#6
    | .ldux | .ldx => 31#6

/-- The primary opcode of a DS-form word (R51). -/
theorem fieldOPCD_encodeDS (rt ra : Gpr) (ds : Int) (xo : BitVec 2) : fieldOPCD (encodeDS rt ra ds xo) = 58#6 := by
  unfold fieldOPCD encodeDS
  rw [BitVec.extractLsb'_append_eq_of_le (v := 30) (w := 2) (by decide),
    BitVec.extractLsb'_append_eq_of_le (v := 16) (w := 14) (by decide),
    BitVec.extractLsb'_append_eq_of_le (v := 11) (w := 5) (by decide),
    BitVec.extractLsb'_append_eq_of_le (v := 6) (w := 5) (by decide)]
  rfl

/-- The primary opcode of an X-form word (R52). -/
theorem fieldOPCD_encodeX (rt ra rb : Gpr) (xo : BitVec 10) : fieldOPCD (encodeX rt ra rb xo) = 31#6 := by
  unfold fieldOPCD encodeX
  rw [BitVec.extractLsb'_append_eq_of_le (v := 31) (w := 1) (by decide),
    BitVec.extractLsb'_append_eq_of_le (v := 21) (w := 10) (by decide),
    BitVec.extractLsb'_append_eq_of_le (v := 16) (w := 5) (by decide),
    BitVec.extractLsb'_append_eq_of_le (v := 11) (w := 5) (by decide),
    BitVec.extractLsb'_append_eq_of_le (v := 6) (w := 5) (by decide)]
  rfl

theorem PrimaryOpcode.ld (rt : Gpr) (ds : Int) (ra : Gpr) : PrimaryOpcode.Statement (.ld rt ds ra) :=
  fieldOPCD_encodeDS rt ra ds 0#2

theorem PrimaryOpcode.ldu (rt : Gpr) (ds : Int) (ra : Gpr) : PrimaryOpcode.Statement (.ldu rt ds ra) :=
  fieldOPCD_encodeDS rt ra ds 1#2

theorem PrimaryOpcode.ldux (rt ra rb : Gpr) : PrimaryOpcode.Statement (.ldux rt ra rb) :=
  fieldOPCD_encodeX rt ra rb 53#10

theorem PrimaryOpcode.ldx (rt ra rb : Gpr) : PrimaryOpcode.Statement (.ldx rt ra rb) :=
  fieldOPCD_encodeX rt ra rb 21#10

end Sys2Proof.Laws
end

