-- ==== Sys2Proof/Tests/Slice0.lean ====
section
/-! SUPPORT. Tests: the smoke test of WellFormed, words written out from the spec's encodings, a few steps from the spec's
vectors (95_test_vectors.md), and for every statement with hypotheses a state that meets them. -/

namespace Sys2Proof.Tests

open Sys2Proof Sys2Proof.Machine

/-! ### WellFormed -/

theorem test_ill_formed_not_multiple_of_4 : (Instr.ld 3 2 1).wellFormed = false := by decide
theorem test_ill_formed_below_least : (Instr.ldu 3 (-32772) 1).wellFormed = false := by decide
theorem test_ill_formed_above_greatest : (Instr.ld 3 32768 1).wellFormed = false := by decide
theorem test_well_formed_ends : (Instr.ld 3 (-32768) 1).wellFormed = true ∧ (Instr.ldu 3 32764 1).wellFormed = true ∧
    (Instr.ldux 6 7 8).wellFormed = true ∧ (Instr.ldx 6 7 8).wellFormed = true := by decide

/-! ### Decoding: the words of 95_test_vectors.md 2.1, and the fields of R51 and R52 written out bit by bit -/

theorem test_decode_ld :
    decodeWord 0b111010_00011_00001_00000000000010_00#32 = .ok (.ld 3 8 1) ∧
    decodeWord 0xE8600100#32 = .ok (.ld 3 256 0) ∧ decodeWord 0xEBFF8000#32 = .ok (.ld 31 (-32768) 31) ∧
    decodeWord 0xE8027FFC#32 = .ok (.ld 0 32764 2) ∧ decodeWord 0xE8A4FFFC#32 = .ok (.ld 5 (-4) 4) ∧
    decodeWord 0xE860FFF8#32 = .ok (.ld 3 (-8) 0) := by decide

theorem test_decode_ldu :
    decodeWord 0b111010_00100_00001_11111111111100_01#32 = .ok (.ldu 4 (-16) 1) ∧
    decodeWord 0xE92A0009#32 = .ok (.ldu 9 8 10) ∧ decodeWord 0xE92A0001#32 = .ok (.ldu 9 0 10) ∧
    decodeWord 0xE8600009#32 = .ok (.ldu 3 8 0) ∧ decodeWord 0xE8A50009#32 = .ok (.ldu 5 8 5) := by decide

theorem test_decode_ldux :
    decodeWord 0b011111_00110_00111_01000_0000110101_0#32 = .ok (.ldux 6 7 8) ∧
    decodeWord 0x7CC7306A#32 = .ok (.ldux 6 7 6) ∧ decodeWord 0x7CC7386A#32 = .ok (.ldux 6 7 7) ∧
    decodeWord 0x7CC6406A#32 = .ok (.ldux 6 6 8) ∧ decodeWord 0x7CC0406A#32 = .ok (.ldux 6 0 8) := by decide

theorem test_decode_ldx :
    decodeWord 0b011111_00101_00011_00100_0000010101_0#32 = .ok (.ldx 5 3 4) ∧
    decodeWord 0x7CA0202A#32 = .ok (.ldx 5 0 4) ∧ decodeWord 0x7C60002A#32 = .ok (.ldx 3 0 0) ∧
    decodeWord 0x7CE7382A#32 = .ok (.ldx 7 7 7) := by decide

theorem test_decode_rejects :
    decodeWord 0xE8610002#32 = .error .reservedEncoding ∧ decodeWord 0xE8610003#32 = .error .reservedEncoding ∧
    decodeWord 0x7CA3202B#32 = .error .reservedEncoding ∧ decodeWord 0x7CC7406B#32 = .error .reservedEncoding ∧
    decodeWord 0x7CA3202E#32 = .error .notInScope ∧ decodeWord 0x80610008#32 = .error .notInScope ∧
    decodeWord 0#32 = .error .notInScope := by decide

/-- R33: `E8 61 00 08` at ascending addresses is `ld r3, 8(r1)`; three bytes are no instruction. -/
theorem test_decode_bytes :
    decode [0xE8#8, 0x61#8, 0x00#8, 0x08#8, 0x7C#8] = .ok (.ld 3 8 1, [0x7C#8]) ∧
    decode [0xE8#8, 0x61#8, 0x00#8] = .error .truncated ∧ encode (.ld 3 8 1) = [0xE8#8, 0x61#8, 0x00#8, 0x08#8] := by
  decide

theorem test_decodeTableWord :
    decodeTableWord 32 0xE8000001 = some (.ldu 0 0 0) ∧ decodeTableWord 32 0x7C00006B = none := by decide

/-- The source text of R63 and of 95_test_vectors.md 2.1. -/
theorem test_asmText : asmText (.ldu 4 (-16) 1) = "ldu r4, -16(r1)" ∧ asmText (.ldx 5 0 4) = "ldx r5, 0, r4" := by decide

/-! ### Single steps -/

/-- The reset state with some registers set, some doublewords in memory, and the pc of 95_test_vectors.md. -/
def testState (regs : List (Gpr × Doubleword)) (mem : List (Addr × Doubleword)) : State :=
  (regs.foldl (fun (s : State) (r : Gpr × Doubleword) => s.setGpr r.1 r.2)
    { State.reset with
      mem := mem.foldl (fun (m : Memory) (c : Addr × Doubleword) => m.write8 c.1 c.2) [] }).setPc 0x00010000#32

/-- The same under policy `snapshot`. -/
def snapshotState (regs : List (Gpr × Doubleword)) (mem : List (Addr × Doubleword)) : State :=
  { testState regs mem with platform := ⟨.snapshot, Platform.default.admitMap⟩ }

/-- The step with a word placed at the pc: two registers and the pc after it, where it gives a next state. -/
def stepShows (s : State) (w : Nat) (r r' : Gpr) : Option (Doubleword × Doubleword × Addr) :=
  match step (s.withFetchWord 32 w) with
  | .next t => some (t.gpr r, t.gpr r', t.pc)
  | .fault _ => none
  | .refused _ => none

/-- V2: `ld r3, 0x100(0)` uses the constant 0 and not `r0`. -/
theorem test_ld_zero_base :
    stepShows (testState [(0, 0xFFFFFFFFFFFFFFFF#64)] [(0x100#32, 0xCAFEBABE00000001#64)]) 0xE8600100 3 0 =
      some (0xCAFEBABE00000001#64, 0xFFFFFFFFFFFFFFFF#64, 0x00010004#32) := by decide

/-- V6: `ld r3, 8(r1)` with the address sum wrapping past the top, to a misaligned address. -/
theorem test_ld_wraps :
    stepShows (testState [(1, 0xFFFFFFFFFFFFFFFC#64)] [(0#32, 0xAAAAAAAABBBBBBBB#64), (8#32, 0xCCCCCCCCDDDDDDDD#64)])
      0xE8610008 3 1 = some (0xBBBBBBBBCCCCCCCC#64, 0xFFFFFFFFFFFFFFFC#64, 0x00010004#32) := by decide

/-- V11: `ldu r9, 8(r10)` clears the upper half of the base. -/
theorem test_ldu_clears_upper_half :
    stepShows (testState [(10, 0xAAAABBBB00003000#64)] [(0x3008#32, 0x1122334455667788#64)]) 0xE92A0009 9 10 =
      some (0x1122334455667788#64, 0x3008#64, 0x00010004#32) := by decide

/-- V13s: under `snapshot`, `ldu r5, 8(r5)` ends with the address in `r5`. -/
theorem test_ldu_snapshot :
    stepShows (snapshotState [(5, 0x4000#64)] [(0x4008#32, 0x1122334455667788#64)]) 0xE8A50009 5 5 =
      some (0x4008#64, 0x4008#64, 0x00010004#32) := by decide

/-- V20: `ldux r6, r7, r6` reads its index before it writes the destination. -/
theorem test_ldux_target_is_index :
    stepShows (testState [(7, 0x1000#64), (6, 8#64)] [(0x1008#32, 0x1122334455667788#64)]) 0x7CC7306A 6 7 =
      some (0x1122334455667788#64, 0x1008#64, 0x00010004#32) := by decide

/-- V21: `ldux r6, r7, r7` drops the carry out of bit 31. -/
theorem test_ldux_base_is_index :
    stepShows (testState [(7, 0x0000000180000800#64)] [(0x1000#32, 0x1122334455667788#64)]) 0x7CC7386A 6 7 =
      some (0x1122334455667788#64, 0x1000#64, 0x00010004#32) := by decide

/-- V18b: `ldx r3, 0, r0` has the constant 0 as base and `r0` as index. -/
theorem test_ldx_zero_base_index_r0 :
    stepShows (testState [(0, 0x1000#64)] [(0x1000#32, 0x1122334455667788#64)]) 0x7C60002A 3 0 =
      some (0x1122334455667788#64, 0x1000#64, 0x00010004#32) := by decide

/-- V16: `ldx r5, r3, r4` with an index that acts as -16. -/
theorem test_ldx_negative_index :
    stepShows (testState [(3, 0x80001000#64), (4, 0xFFFFFFFFFFFFFFF0#64)] [(0x80000FF0#32, 0x1122334455667788#64)])
      0x7CA3202A 5 3 = some (0x1122334455667788#64, 0x80001000#64, 0x00010004#32) := by decide

/-! ### States that meet the hypotheses of the statements, clause by clause -/

/-- `ld r3, 8(r1)` at the pc, with `r1` given: its data address is `r1 + 8`. -/
def ldState (r1 : Doubleword) : State := (testState [(1, r1)] [(0x1008#32, 0x1122334455667788#64)]).withFetchWord 32 0xE8610008

/-- A platform that admits fetches everywhere and data only below 0x1000. -/
def lowData (s : State) : State := { s with platform := ⟨.refuse, [⟨.data, 0, 0xFFF⟩, ⟨.fetch, 0, 0xFFFFFFFF⟩]⟩ }

/-- A word at the pc of the reset state moved to 0xFFFFFFFC. -/
def topState (w : Nat) : State := (State.reset.setPc 0xFFFFFFFC#32).withFetchWord 32 w

theorem witness_DecodeOfEncodeGivesInstructionBack :
    (Instr.ld 31 (-32768) 0).wellFormed = true ∧ (Instr.ldu 0 32764 31).wellFormed = true ∧
    (Instr.ldux 31 31 31).wellFormed = true ∧ (Instr.ldx 0 0 0).wellFormed = true := by decide

theorem witness_EncodeOfDecodeGivesWordBack :
    decodeWord 0xEBFF8000#32 = .ok (.ld 31 (-32768) 31) ∧ decodeWord 0x7CC7406A#32 = .ok (.ldux 6 7 8) := by decide

theorem witness_WordIsOfRowIffMaskedBitsMatch :
    (0xE8610008#32 : Word) &&& (opcodeRow .ld).mask = (opcodeRow .ld).matchWord ∧
    (0x7CA3202A#32 : Word) &&& (opcodeRow .ldx).mask = (opcodeRow .ldx).matchWord := by decide

theorem witness_AssembledWordIsMatchWithShiftedFields :
    dispWellFormed (-32768) = true ∧ dispWellFormed 32764 = true ∧ dispWellFormed 0 = true := by decide

theorem witness_AssemblerChecksAndScalesDisplacement :
    (32767 : Int) % 4 ≠ 0 ∧ ((32768 : Int) % 4 = 0 ∧ (32764 : Int) < 32768) ∧
    ((-32772 : Int) % 4 = 0 ∧ (-32772 : Int) < -32768) ∧ ((-32768 : Int) % 4 = 0 ∧ (32764 : Int) % 4 = 0) := by decide

theorem witness_SourceFormReadsBack :
    parseAsm [.mnemonic .ldx, .reg 5, .comma, .num 0, .comma, .reg 4] = some (.ldx 5 0 4) := by decide

theorem witness_BytesOfInstructionDecodeToIt : (Instr.ldu 4 (-16) 1).wellFormed = true := by decide

theorem witness_EveryRegisterHoldsWhatWasLastWritten : (0 : Gpr) ≠ 31 := by decide

theorem witness_ByteWrittenIsByteReadElsewhereUnchanged :
    Memory.wf [(0, 0x11#8), (0xFFFFFFFF, 0x22#8)] = true := by decide

theorem witness_DoublewordWrittenIsDoublewordRead :
    Memory.wf [(3, 0x11#8)] = true ∧ (0xFFFFFFF8#32).toNat ≤ 0xFFFFFFF8 ∧
    (0xFFFFFFF7#32).toNat < (0xFFFFFFF8#32).toNat ∧ (0xFFFFFFF0#32).toNat + 8 ≤ (0xFFFFFFF8#32).toNat := by decide

theorem witness_CanonicalMemoriesThatReadAlikeAreEqual :
    ∃ m n : Memory, m.wf = true ∧ n.wf = true ∧ m ≠ [] ∧ ∀ a : Addr, m.byteAt a = n.byteAt a :=
  ⟨[(7, 0x11#8)], [(7, 0x11#8)], by decide, by decide, by decide, fun _ => rfl⟩

theorem witness_EveryAdmitPredicateIsRepresented :
    (lowData State.reset).platform.admitMap = [⟨.data, 0, 0xFFF⟩, ⟨.fetch, 0, 0xFFFFFFFF⟩] := by decide

/-- Both base forms: RA = 0 with a negative displacement, to the greatest address; RA = 1. -/
theorem witness_LdLoadsDoublewordAtBasePlusDisplacement :
    (((0xFFFFFFF8#32).toNat : Int) = (0 + -8) % 2 ^ 32 ∧ CanLoad (ldState 0x1000#64) 0xFFFFFFF8#32) ∧
    (((0x1008#32).toNat : Int) = (((ldState 0x1000#64).gpr 1).toNat + 8) % 2 ^ 32 ∧
      CanLoad (ldState 0x1000#64) 0x1008#32) :=
  ⟨⟨by decide, by decide, by decide, by decide⟩, by decide, by decide, by decide, by decide⟩

theorem witness_LduLoadsDoublewordAndUpdatesBase :
    (1 : Gpr) ≠ 0 ∧ (1 : Gpr) ≠ 3 ∧
    ((0xFFFFFFF8#32).toNat : Int) = (((ldState 0xFFFFFFFF00000000#64).gpr 1).toNat + -8) % 2 ^ 32 ∧
    CanLoad (ldState 0xFFFFFFFF00000000#64) 0xFFFFFFF8#32 :=
  ⟨by decide, by decide, by decide, by decide, by decide, by decide⟩

theorem witness_LduxLoadsDoublewordAndUpdatesBase :
    (1 : Gpr) ≠ 0 ∧ (1 : Gpr) ≠ 3 ∧
    (0#32).toNat = (((ldState 0x80000000#64).gpr 1).toNat + ((ldState 0x80000000#64).gpr 1).toNat) % 2 ^ 32 ∧
    CanLoad (ldState 0x80000000#64) 0#32 :=
  ⟨by decide, by decide, by decide, by decide, by decide, by decide⟩

theorem witness_LdxLoadsDoublewordAtBasePlusIndex :
    (0x1008#32).toNat = (0 + ((ldState 0x1008#64).gpr 1).toNat) % 2 ^ 32 ∧ CanLoad (ldState 0x1008#64) 0x1008#32 ∧
    (0x2010#32).toNat = (((ldState 0x1008#64).gpr 1).toNat + ((ldState 0x1008#64).gpr 1).toNat) % 2 ^ 32 ∧
    CanLoad (ldState 0x1008#64) 0x2010#32 :=
  ⟨by decide, ⟨by decide, by decide, by decide⟩, by decide, by decide, by decide, by decide⟩

/-- RA = RT, RA = 0, and both, with a read that completes, one above the top of the space and one not admitted. -/
theorem witness_SnapshotPolicyRunsInvalidForms :
    (snapshotState [(5, 0x4000#64)] []).platform.policy = .snapshot ∧
    ((8 : Nat) : Int) = (8 : Int) % 2 ^ 64 ∧
    (0x4008 = (((snapshotState [(5, 0x4000#64)] []).gpr 5).toNat + 8) % 2 ^ 32 ∧
      CanLoad (snapshotState [(5, 0x4000#64)] []) (BitVec.ofNat 32 0x4008)) ∧
    0xFFFFFFF8 < (((snapshotState [(0, 0xFFFFFFF1#64)] []).gpr 0).toNat + 8) % 2 ^ 32 ∧
    ({ lowData State.reset with
        platform := ⟨.snapshot, [⟨.data, 0, 0xFFF⟩]⟩ } : State).admits (BitVec.ofNat 32 0x4008) 8 .data = false :=
  ⟨by decide, by decide, ⟨by decide, by decide, by decide, by decide⟩, by decide, by decide⟩

theorem witness_TargetReceivesAllBitsFromMemory :
    (∃ t, exec (.ld 3 8 1) (ldState 0x1000#64) = .next t) ∧ updatedGpr (.ld 3 8 1) ≠ some (targetGpr (.ld 3 8 1)) ∧
    (∃ t, exec (.ldu 3 8 1) (ldState 0x1000#64) = .next t) ∧ updatedGpr (.ldu 3 8 1) = some 1 ∧
    targetGpr (.ld 0 8 0) ∉ readGprs (.ld 0 8 0) := ⟨⟨_, rfl⟩, by decide, ⟨_, rfl⟩, by decide, by decide⟩

theorem witness_EveryAlignmentIsReadByAllFour :
    FormRuns (.ldux 3 1 2) (ldState 0x1003#64) ∧
    CanLoad (ldState 0x1003#64) (effectiveAddress (.ldux 3 1 2) (ldState 0x1003#64)) ∧
    updatedGpr (.ldux 3 1 2) ≠ some (targetGpr (.ldux 3 1 2)) :=
  ⟨.inr ⟨by decide, by decide⟩, ⟨by decide, by decide, by decide⟩, by decide⟩

/-- Two states that differ in `r0` and `r3`, which `ldx r5, 0, r1` does not read; one completes and one is refused. -/
theorem witness_InstructionReadsAndWritesOnlyItsRegisters :
    (∀ r, r ∈ readGprs (.ldx 5 0 1) → ((ldState 0x1000#64).setGpr 0 7#64).gpr r = (ldState 0x1000#64).gpr r) ∧
    (∃ t, exec (.ldx 5 0 1) (ldState 0x1000#64) = .next t) ∧
    exec (.ldx 5 0 1) (ldState 0xFFFFFFFF#64) = .refused .topOfSpace := ⟨by decide, ⟨_, rfl⟩, rfl⟩

/-- Both sides of the equivalence are met: by `ldu r3, 8(r0)` and by `ldux r6, r6, r8`. -/
theorem witness_InvalidFormsAreExactlyWhatInvalidFormRefuses :
    exec (.ldu 3 8 0) State.reset = .refused .invalidForm ∧ exec (.ldux 6 6 8) State.reset = .refused .invalidForm ∧
    State.reset.platform.policy = .refuse := ⟨rfl, rfl, rfl⟩

theorem witness_ReadBeyondTopOfSpaceIsRefused :
    FormRuns (.ld 3 8 1) (ldState 0xFFFFFFF1#64) ∧
    (effectiveAddress (.ld 3 8 1) (ldState 0xFFFFFFF1#64)).toNat + 7 ≥ 2 ^ 32 ∧
    exec (.ld 3 8 1) (ldState 0xFFFFFFF1#64) = .refused .topOfSpace ∧
    effectiveAddress (.ld 3 8 1) (ldState 0xFFFFFFF0#64) = 0xFFFFFFF8#32 ∧
    (ldState 0xFFFFFFF0#64).admits 0xFFFFFFF8#32 8 .data = true ∧ (ldState 0xFFFFFFF0#64).pc ≠ 0xFFFFFFFC#32 :=
  ⟨trivial, by decide, rfl, by decide, by decide, by decide⟩

theorem witness_AccessNotAdmittedIsRefused :
    ((lowData (ldState 0x1000#64)).pc.toNat % 4 = 0 ∧
      ({ ldState 0x1000#64 with platform := ⟨.refuse, []⟩ } : State).admits 0x00010000#32 4 .fetch = false) ∧
    (CanFetch (lowData (ldState 0x1000#64)) ∧
      decodeWord (fetchWord (lowData (ldState 0x1000#64))) = .ok (.ld 3 8 1) ∧
      (effectiveAddress (.ld 3 8 1) (lowData (ldState 0x1000#64))).toNat ≤ 0xFFFFFFF8 ∧
      (lowData (ldState 0x1000#64)).admits (effectiveAddress (.ld 3 8 1) (lowData (ldState 0x1000#64))) 8 .data = false) ∧
    ∃ t, step (ldState 0x1000#64) = .next t :=
  ⟨⟨by decide, by decide⟩, ⟨⟨by decide, by decide⟩, by decide, by decide, by decide⟩, _, rfl⟩

theorem witness_ZeroBaseFormsDoNotReadRegisterZero :
    (3 : Gpr) ≠ 0 ∧ (4 : Gpr) ≠ 0 ∧ (∃ t, exec (.ld 3 256 0) State.reset = .next t) ∧
    (∃ t, exec (.ldx 3 0 4) State.reset = .next t) ∧
    exec (.ld 3 (-4) 0) State.reset = .refused .topOfSpace := ⟨by decide, by decide, ⟨_, rfl⟩, ⟨_, rfl⟩, rfl⟩

theorem witness_IndexedAndDisplacementFormsAgree :
    (1 : Gpr) ≠ 0 ∧ (2 : Gpr) ≠ 0 ∧
    (((testState [(2, 0x00000007FFFFFFFC#64)] []).gpr 2).toNat : Int) % 2 ^ 32 = (-4 : Int) % 2 ^ 32 :=
  ⟨by decide, by decide, by decide⟩

theorem witness_UpdateFormIsPlainFormThenBaseUpdate :
    (1 : Gpr) ≠ 0 ∧ (1 : Gpr) ≠ 3 ∧ (∃ t, exec (.ld 3 8 1) (ldState 0x1000#64) = .next t) ∧
    ∃ t, exec (.ldx 3 1 2) (ldState 0x1000#64) = .next t := ⟨by decide, by decide, ⟨_, rfl⟩, _, rfl⟩

/-- `ld r1, 8(r1)` and then `ld r4, 0(r1)`: the second reads at the address that the first has loaded. -/
theorem witness_LoadSeesRegisterLoadedJustBefore :
    ∃ t u, exec (.ld 1 8 1) (ldState 0x1000#64) = .next t ∧ exec (.ld 4 0 1) t = .next u ∧
      ((0x55667788#32).toNat : Int) = addressFrom (gprAfter (.ld 1 8 1) (ldState 0x1000#64)) (.ld 4 0 1) ∧
      updatedGpr (.ld 4 0 1) ≠ some (targetGpr (.ld 4 0 1)) := ⟨_, _, rfl, rfl, by decide, by decide⟩

/-- `ldu r3, 8(r1)` and then `ldux r4, r1, r3`: the base is the updated register and the index the loaded one. -/
theorem witness_LoadSeesRegisterUpdatedJustBefore :
    ∃ t u, exec (.ldu 3 8 1) (ldState 0x1000#64) = .next t ∧ exec (.ldux 4 1 3) t = .next u ∧
      ((0x55668790#32).toNat : Int) = addressFrom (gprAfter (.ldu 3 8 1) (ldState 0x1000#64)) (.ldux 4 1 3) ∧
      updatedGpr (.ldux 4 1 3) ≠ some (targetGpr (.ldux 4 1 3)) ∧ updatedGpr (.ldux 4 1 3) = some 1 :=
  ⟨_, _, rfl, rfl, by decide, by decide, by decide⟩

theorem witness_StepRunsTheDecodedInstruction :
    CanFetch (ldState 0x1000#64) ∧ decodeWord (fetchWord (ldState 0x1000#64)) = .ok (.ld 3 8 1) ∧
    (Instr.ld 3 8 1).wellFormed = true := ⟨⟨by decide, by decide⟩, by decide, by decide⟩

theorem witness_WordPlacedAtPcIsWhatStepRuns :
    (topState 0xE8610008).mem.wf = true ∧ CanFetch (topState 0xE8610008) ∧
    decodeWord 0xE8610008#32 = .ok (.ld 3 8 1) ∧ (0xFFFFFFFB#32).toNat < (topState 0).pc.toNat ∧
    State.reset.pc.toNat + 4 ≤ (4#32).toNat := ⟨by decide, ⟨by decide, by decide⟩, by decide, by decide, by decide⟩

/-- One state for each of the seven refusals, in their order, and one for the step that goes on. -/
theorem witness_RefusalTestsComeInTheirOrder :
    (State.reset.setPc 2#32).pc.toNat % 4 ≠ 0 ∧
    (State.reset.pc.toNat % 4 = 0 ∧
      ({ State.reset with platform := ⟨.refuse, []⟩ } : State).admits 0#32 4 .fetch = false) ∧
    (CanFetch State.reset ∧ decodeWord (fetchWord State.reset) = .error .notInScope) ∧
    decodeWord (fetchWord (State.reset.withFetchWord 32 0xE8610002)) = .error .reservedEncoding ∧
    (decodeWord (fetchWord (State.reset.withFetchWord 32 0xE8A50009)) = .ok (.ldu 5 8 5) ∧
      ¬ FormRuns (.ldu 5 8 5) (State.reset.withFetchWord 32 0xE8A50009)) ∧
    (FormRuns (.ld 3 8 1) (ldState 0xFFFFFFF1#64) ∧
      0xFFFFFFF8 < (effectiveAddress (.ld 3 8 1) (ldState 0xFFFFFFF1#64)).toNat) ∧
    (lowData (ldState 0x1000#64)).admits (effectiveAddress (.ld 3 8 1) (lowData (ldState 0x1000#64))) 8 .data = false ∧
    (CanFetch (topState 0xE8610008) ∧ decodeWord (fetchWord (topState 0xE8610008)) = .ok (.ld 3 8 1) ∧
      (effectiveAddress (.ld 3 8 1) (topState 0xE8610008)).toNat ≤ 0xFFFFFFF8 ∧
      (topState 0xE8610008).admits (effectiveAddress (.ld 3 8 1) (topState 0xE8610008)) 8 .data = true) ∧
    CanLoad (ldState 0x1000#64) (effectiveAddress (.ld 3 8 1) (ldState 0x1000#64)) :=
  ⟨by decide, ⟨by decide, by decide⟩, ⟨⟨by decide, by decide⟩, by decide⟩, by decide,
    ⟨by decide, fun h => h.elim (by decide) (fun h => h.2 rfl)⟩, ⟨trivial, by decide⟩, by decide,
    ⟨⟨by decide, by decide⟩, by decide, by decide, by decide⟩, by decide, by decide, by decide⟩

theorem witness_WordsOutsideTheFourRowsAreRefusedByName :
    CanFetch (State.reset.withFetchWord 32 0xE8610003) ∧
    fetchWord (State.reset.withFetchWord 32 0xE8610003) &&& 0xFC000002#32 = 0xE8000002#32 ∧
    fetchWord (State.reset.withFetchWord 32 0x7CA3202B) &&& 0xFC0007FF#32 = 0x7C00002B#32 ∧
    fetchWord (State.reset.withFetchWord 32 0x7CC7406B) &&& 0xFC0007FF#32 = 0x7C00006B#32 ∧
    (fetchWord (State.reset.withFetchWord 32 0x7CA3202E) &&& 0xFC000000#32 ≠ 0xE8000000#32 ∧
      ¬ (fetchWord (State.reset.withFetchWord 32 0x7CA3202E) &&& 0xFC000000#32 = 0x7C000000#32 ∧
        (fetchWord (State.reset.withFetchWord 32 0x7CA3202E) &&& 0x7FE#32 = 0x2A#32 ∨
          fetchWord (State.reset.withFetchWord 32 0x7CA3202E) &&& 0x7FE#32 = 0x6A#32))) :=
  ⟨⟨by decide, by decide⟩, by decide, by decide, by decide, by decide⟩

theorem witness_StepNeverWrapsProgramCounter :
    (∃ t, step (ldState 0x1000#64) = .next t) ∧ (topState 0xE8610008).pc = 0xFFFFFFFC#32 ∧
    (topState 0xE8610008).admits (topState 0xE8610008).pc 4 .fetch = true ∧
    decodeWord (fetchWord (topState 0xE8610008)) = .ok (.ld 3 8 1) ∧ FormRuns (.ld 3 8 1) (topState 0xE8610008) ∧
    (effectiveAddress (.ld 3 8 1) (topState 0xE8610008)).toNat ≤ 0xFFFFFFF8 ∧
    (topState 0xE8610008).admits (effectiveAddress (.ld 3 8 1) (topState 0xE8610008)) 8 .data = true :=
  ⟨⟨_, rfl⟩, by decide, by decide, by decide, trivial, by decide, by decide⟩

theorem witness_StepChangesOnlyTargetBaseAndPc : ∃ t, step (ldState 0x1000#64) = .next t := ⟨_, rfl⟩

theorem witness_EveryStepKeepsTheInvariant :
    (ldState 0x1000#64).Inv ∧ ∃ t, step (ldState 0x1000#64) = .next t := ⟨⟨by decide, by decide⟩, _, rfl⟩

theorem witness_AlignedRunNeverRefusesForMisalignment :
    (State.reset.setPc 3#32).pc.toNat % 4 ≠ 0 ∧ (ldState 0x1000#64).pc.toNat % 4 = 0 ∧
    ∃ t, stepsTo 1 (ldState 0x1000#64) = some t := ⟨by decide, by decide, _, rfl⟩

theorem witness_RunIsStraightLineOverUnchangedMemory : ∃ t, stepsTo 1 (ldState 0x1000#64) = some t := ⟨_, rfl⟩

/-- A program of one load: launched, its first word is the next to run; and the words that a launched program may hold
besides instructions. -/
theorem witness_LaunchedProgramRunsInOrder :
    LaunchOk [0xE8610008#32] (ldState 0x1000#64) ∧ [0xE8610008#32][0]? = some 0xE8610008#32 ∧
    stepsTo 0 (ldState 0x1000#64) = some (ldState 0x1000#64) ∧ decodeWord 0xE8610008#32 = .ok (.ld 3 8 1) ∧
    decodeWord 0#32 = .error .notInScope ∧ decodeWord 0xE8610002#32 = .error .reservedEncoding := by
  refine ⟨⟨by decide, by decide, fun k w h => ?_⟩, rfl, rfl, by decide, by decide, by decide⟩
  match k, h with
  | 0, h =>
    obtain rfl : (0xE8610008#32 : Word) = w := by simpa using h
    exact ⟨by decide, by decide⟩

/-- The four standings of a run: ended at once, ended after a step, refused after a step, and still running. -/
theorem witness_RunEndsAtHaltOrStandsAtRefusedStep :
    haltAt 0x00010000#32 (ldState 0x1000#64) = true ∧
    (∃ t, runUntil (haltAt 0x00010004#32) 5 (ldState 0x1000#64) = .ended t) ∧
    (∃ t, runUntil (haltAt 0#32) 5 (ldState 0x1000#64) = .refused .notInScope t) ∧
    ∃ t, runUntil (haltAt 0#32) 1 (ldState 0x1000#64) = .running t := ⟨by decide, ⟨_, rfl⟩, ⟨_, rfl⟩, _, rfl⟩

/-- Two states that differ in the upper half of `r1` alone; the next word after the load is refused. -/
theorem witness_UpperHalvesOfRegistersNeverSteerARun :
    LowHalvesAgree (ldState 0x1000#64) (ldState 0xAAAABBBB00001000#64) ∧
    ldState 0x1000#64 ≠ ldState 0xAAAABBBB00001000#64 ∧
    ∃ t, stepsTo 1 (ldState 0x1000#64) = some t ∧ step t = .refused .notInScope :=
  ⟨⟨by decide, by decide, by decide, by decide⟩, by decide, _, rfl, rfl⟩

end Sys2Proof.Tests
end

/-! ### Reads of memory after writes (10_state.md R18, 00_scope.md R7, 20_memory.md R31) -/

namespace Sys2Proof.Machine

/-- In canonical form from a bound, no address below the bound is listed. -/
theorem lookup_of_lt {low a : Nat} {m : Memory} (h : Memory.wfFrom low m = true) (ha : a < low) :
    m.lookup a = Memory.unlisted := by
  induction m generalizing low with
  | nil => rfl
  | cons e m ih =>
    obtain ⟨k, v⟩ := e
    obtain ⟨hk, -, -, hm⟩ := (wfFrom_cons_iff ..).1 h
    have hne : k ≠ a := by omega
    simpa [Memory.lookup, hne] using ih hm (by omega)

/-- A byte stored under a key is the byte found there; what other keys hold stays. -/
theorem lookup_store {low : Nat} {m : Memory} (a c : Nat) (b : Byte) (h : Memory.wfFrom low m = true) :
    (m.store a b).lookup c = if c = a then b else m.lookup c := by
  induction m generalizing low with
  | nil =>
    by_cases hb : b = Memory.unlisted <;> simp [Memory.store, Memory.lookup, hb, eq_comm]
  | cons e m ih =>
    obtain ⟨k, v⟩ := e
    obtain ⟨-, -, -, hm⟩ := (wfFrom_cons_iff ..).1 h
    have below : ∀ x, x ≤ k → Memory.lookup m x = Memory.unlisted := fun x hx => lookup_of_lt hm (by omega)
    rcases Nat.lt_trichotomy k a with hka | rfl | hak <;> grind [Memory.store, Memory.lookup]

/-- R18: a byte written is the byte read, and every other byte stays. -/
theorem byteAt_setByte {m : Memory} (a b : Addr) (v : Byte) (h : m.wf = true) :
    (m.setByte a v).byteAt b = if b = a then v else m.byteAt b := by
  simp only [Memory.byteAt, Memory.setByte, lookup_store _ _ _ h, BitVec.toNat_inj]

/-- Writing bytes at ascending addresses leaves every other address alone. -/
theorem byteAt_setBytes_of_ne {m : Memory} {a b : Addr} {bs : List Byte} (h : m.wf = true)
    (hb : ∀ i, i < bs.length → b ≠ a + BitVec.ofNat 32 i) : (m.setBytes a bs).byteAt b = m.byteAt b := by
  induction bs generalizing m a with
  | nil => rfl
  | cons v bs ih =>
    have hba : b ≠ a := by simpa using hb 0 (by simp)
    have htail : ∀ i, i < bs.length → b ≠ a + 1 + BitVec.ofNat 32 i := fun i hi => by
      have := hb (i + 1) (by simpa using hi)
      rwa [Nat.add_comm i 1, BitVec.ofNat_add, ← BitVec.add_assoc] at this
    calc (m.setBytes a (v :: bs)).byteAt b
      _ = (m.setByte a v).byteAt b := ih (setByte_wf a v h) htail
      _ = m.byteAt b := by rw [byteAt_setByte a b v h, if_neg hba]

/-- Of at most 2^32 bytes written at ascending addresses, each is read back at its own address. -/
theorem byteAt_setBytes {m : Memory} (a : Addr) {bs : List Byte} (h : m.wf = true) (hlen : bs.length ≤ 2 ^ 32)
    {i : Nat} (hi : i < bs.length) : (m.setBytes a bs).byteAt (a + BitVec.ofNat 32 i) = bs[i] := by
  induction bs generalizing m a i with
  | nil => simp at hi
  | cons v bs ih =>
    simp only [List.length_cons] at hlen hi
    cases i with
    | zero =>
      have htail : ∀ j, j < bs.length → a + BitVec.ofNat 32 0 ≠ a + 1 + BitVec.ofNat 32 j := fun j hj => by
        bv_omega
      calc (m.setBytes a (v :: bs)).byteAt (a + BitVec.ofNat 32 0)
        _ = (m.setByte a v).byteAt (a + BitVec.ofNat 32 0) := byteAt_setBytes_of_ne (setByte_wf a v h) htail
        _ = v := by simp [byteAt_setByte _ _ _ h]
    | succ i =>
      have hshift : a + BitVec.ofNat 32 (i + 1) = a + 1 + BitVec.ofNat 32 i := by
        bv_omega
      rw [hshift]
      exact ih (a + 1) (setByte_wf a v h) (by omega) (by omega)

/-- R31: the eight bytes at an address determine the doubleword read there. -/
theorem read8_of_holdsBytesAt {m : Memory} {a : Addr} {v : Doubleword} (h : HoldsBytesAt m a v) : m.read8 a = v := by
  have byte (i : Nat) (hi : i < 8) : m.byteAt (a + BitVec.ofNat 32 i) = v.extractLsb' (56 - 8 * i) 8 := (h i hi).symm
  calc m.read8 a
    _ = m.byteAt (a + BitVec.ofNat 32 0) ++ m.byteAt (a + BitVec.ofNat 32 1) ++ m.byteAt (a + BitVec.ofNat 32 2) ++
        m.byteAt (a + BitVec.ofNat 32 3) ++ m.byteAt (a + BitVec.ofNat 32 4) ++ m.byteAt (a + BitVec.ofNat 32 5) ++
        m.byteAt (a + BitVec.ofNat 32 6) ++ m.byteAt (a + BitVec.ofNat 32 7) := by simp [Memory.read8]
    _ = v.extractLsb' 56 8 ++ v.extractLsb' 48 8 ++ v.extractLsb' 40 8 ++ v.extractLsb' 32 8 ++
        v.extractLsb' 24 8 ++ v.extractLsb' 16 8 ++ v.extractLsb' 8 8 ++ v.extractLsb' 0 8 := by
      rw [byte 0, byte 1, byte 2, byte 3, byte 4, byte 5, byte 6, byte 7] <;> decide
    _ = v := by
      simp (disch := rfl) only [BitVec.extractLsb'_append_extractLsb'_eq_extractLsb', BitVec.extractLsb'_eq_self]

/-- R31: the entry at `i` of a doubleword's bytes is the byte that `i` places after the first supplies. -/
theorem bytesOfDoubleword_getElem (v : Doubleword) (i : Nat) (hi : i < 8) :
    (bytesOfDoubleword v)[i]'hi = v.extractLsb' (56 - 8 * i) 8 := by
  interval_cases i <;> rfl

/-- `MemWrite(addr, 8, v)` leaves the bytes of `v` at `addr`. -/
theorem write8_holdsBytesAt {m : Memory} (a : Addr) (v : Doubleword) (h : m.wf = true) :
    HoldsBytesAt (m.write8 a v) a v := fun i hi => by
  rw [← bytesOfDoubleword_getElem v i hi]
  exact (byteAt_setBytes a (bs := bytesOfDoubleword v) h (by simp [bytesOfDoubleword]) hi).symm

/-- `MemWrite(addr, 8, v)` below the top of the space leaves every byte outside its eight alone. -/
theorem byteAt_write8_of_outside {m : Memory} {a b : Addr} (v : Doubleword) (h : m.wf = true)
    (ha : a.toNat ≤ 0xFFFFFFF8) (hb : b.toNat < a.toNat ∨ a.toNat + 8 ≤ b.toNat) :
    (m.write8 a v).byteAt b = m.byteAt b := by
  refine byteAt_setBytes_of_ne h fun i (hi : i < 8) => ?_
  have hi32 : (a + BitVec.ofNat 32 i).toNat = a.toNat + i := by bv_omega
  rintro rfl
  omega

/-- Settles O14: a doubleword written below the top of the space is read back, and the bytes outside its eight stay. -/
theorem doublewordWrittenIsDoublewordRead : Obligations.DoublewordWrittenIsDoublewordRead :=
  fun _ a v hwf ha =>
    ⟨read8_of_holdsBytesAt (write8_holdsBytesAt a v hwf), fun _ hb => byteAt_write8_of_outside v hwf ha hb⟩

end Sys2Proof.Machine

/-! ### The meanings of the instructions in one form (40_load_doubleword.md R70 to R75) -/

namespace Sys2Proof.Machine

theorem exec_ld (rt : Gpr) (ds : Int) (ra : Gpr) (s : State) : exec (.ld rt ds ra) s = execLd rt ds ra s := rfl
theorem exec_ldu (rt : Gpr) (ds : Int) (ra : Gpr) (s : State) : exec (.ldu rt ds ra) s = execLdu rt ds ra s := rfl
theorem exec_ldux (rt ra rb : Gpr) (s : State) : exec (.ldux rt ra rb) s = execLdux rt ra rb s := rfl
theorem exec_ldx (rt ra rb : Gpr) (s : State) : exec (.ldx rt ra rb) s = execLdx rt ra rb s := rfl

/-- The register writes of an instruction that reads at `ea`: RT, and for the update forms then RA. -/
def registerWrites (i : Instr) (ea : Addr) : Doubleword → State → State :=
  match i with
  | .ld rt _ _ => writeTarget rt
  | .ldu rt _ ra => writeTargetAndBase rt ra ea
  | .ldux rt ra _ => writeTargetAndBase rt ra ea
  | .ldx rt _ _ => writeTarget rt

/-- A form that runs is a load at its effective address with its register writes. -/
theorem exec_of_formRuns {i : Instr} {s : State} (h : FormRuns i s) :
    exec i s = completeLoad s (effectiveAddress i s) (registerWrites i (effectiveAddress i s)) := by
  cases i with
  | ld rt ds ra => rfl
  | ldu rt ds ra => exact execLdu_of_runs ds ((refusesForm_eq_false_iff ..).2 h)
  | ldux rt ra rb => exact execLdux_of_runs rb ((refusesForm_eq_false_iff ..).2 h)
  | ldx rt ra rb => rfl

/-- A form that does not run is refused as invalid (30_encoding.md R61). -/
theorem exec_of_not_formRuns {i : Instr} {s : State} (h : ¬ FormRuns i s) : exec i s = .refused .invalidForm := by
  cases i with
  | ld rt ds ra => exact absurd trivial h
  | ldu rt ds ra =>
    exact execLdu_of_refuses ds (Bool.of_not_eq_false fun hr => h ((refusesForm_eq_false_iff ..).1 hr))
  | ldux rt ra rb =>
    exact execLdux_of_refuses rb (Bool.of_not_eq_false fun hr => h ((refusesForm_eq_false_iff ..).1 hr))
  | ldx rt ra rb => exact absurd trivial h

end Sys2Proof.Machine

/-! ### The closed list of outcomes (00_scope.md R8) -/

namespace Sys2Proof.Machine

/-- The outcomes that R8 leaves to a step: a next state, or a refusal for one of its seven reasons. -/
def IsListedOutcome (o : Outcome) : Prop :=
  (∃ t, o = .next t) ∨
    o = .refused .notInScope ∨ o = .refused .reservedEncoding ∨ o = .refused .invalidForm ∨
    o = .refused .topOfSpace ∨ o = .refused .notAdmitted ∨ o = .refused .fetchMisaligned ∨ o = .refused .pcOverflow

/-- There are no faults, and one reason alone is not on R8's list: the host's own. -/
theorem isListedOutcome_iff (o : Outcome) : IsListedOutcome o ↔ ∀ m, o ≠ .refused (.notModelled m) := by
  cases o with
  | next t => simp [IsListedOutcome]
  | fault f => cases f
  | refused r => cases r <;> simp [IsListedOutcome]

/-- A load is never refused as not modelled. -/
theorem isListedOutcome_completeLoad (s : State) (ea : Addr) (writes : Doubleword → State → State) :
    IsListedOutcome (completeLoad s ea writes) := by
  rw [isListedOutcome_iff]
  rcases completeLoad_cases s ea writes with ⟨-, e⟩ | ⟨-, -, e⟩ | ⟨-, -, -, e⟩ | ⟨-, -, -, e⟩ <;> simp [e]

theorem isListedOutcome_exec (i : Instr) (s : State) : IsListedOutcome (exec i s) := by
  by_cases h : FormRuns i s
  · rw [exec_of_formRuns h]
    exact isListedOutcome_completeLoad ..
  · rw [exec_of_not_formRuns h]
    simp [isListedOutcome_iff]

/-- The reasons of the fetch are on the list. -/
theorem isListedOutcome_of_fetch_error {s : State} {r : Refusal} (h : fetch s = .error r) :
    IsListedOutcome (.refused r) := by
  rw [isListedOutcome_iff]
  rcases fetch_cases s with ⟨-, e⟩ | ⟨-, -, e⟩ | ⟨-, -, ⟨r', -, e⟩ | ⟨i, -, e⟩⟩
  · obtain rfl : Refusal.fetchMisaligned = r := by simpa [e] using h
    simp
  · obtain rfl : Refusal.notAdmitted = r := by simpa [e] using h
    simp
  · obtain rfl : refusalOfReject r' = r := by simpa [e] using h
    cases r' <;> simp [refusalOfReject]
  · simp [e] at h

theorem isListedOutcome_step (s : State) : IsListedOutcome (step s) := by
  rcases step_cases s with ⟨r, hf, e⟩ | ⟨i, -, e⟩
  · rw [e]
    exact isListedOutcome_of_fetch_error hf
  · rw [e]
    exact isListedOutcome_exec i s

/-! One state for each outcome: the reset state with one word placed, and one field changed where the outcome needs it. -/

/-- `ld r3, 256(0)` completes. -/
theorem step_ld_next : ∃ t, step (State.reset.withFetchWord 32 0xE8600100) = .next t := ⟨_, rfl⟩

/-- The word 0, which the reset memory holds everywhere, is none of the four instructions. -/
theorem step_reset_refused : step State.reset = .refused .notInScope := rfl

/-- Primary opcode 58 with XO = 2. -/
theorem step_reservedWord_refused :
    step (State.reset.withFetchWord 32 0xE8610002) = .refused .reservedEncoding := rfl

/-- `ldu r5, 8(r5)`, with RA = RT. -/
theorem step_invalidForm_refused : step (State.reset.withFetchWord 32 0xE8A50009) = .refused .invalidForm := rfl

/-- `ld r3, -4(0)` reads at 0xFFFFFFFC. -/
theorem step_topOfSpace_refused : step (State.reset.withFetchWord 32 0xE860FFFC) = .refused .topOfSpace := rfl

/-- A map without windows admits no fetch. -/
theorem step_notAdmitted_refused :
    step { State.reset with platform := ⟨.refuse, []⟩ } = .refused .notAdmitted := rfl

theorem step_misalignedPc_refused : step (State.reset.setPc 2#32) = .refused .fetchMisaligned := rfl

/-- `ld r3, 256(0)` at the last word of the space. -/
theorem step_lastWord_refused :
    step ((State.reset.setPc 0xFFFFFFFC#32).withFetchWord 32 0xE8600100) = .refused .pcOverflow := rfl

/-- Settles O40: the step's outcomes are those of R8's list, and each occurs. -/
theorem everyStepCompletesOrIsRefusedForAListedReason :
    Obligations.EveryStepCompletesOrIsRefusedForAListedReason :=
  ⟨isListedOutcome_step, ⟨_, step_ld_next⟩, ⟨_, step_reset_refused⟩, ⟨_, step_reservedWord_refused⟩,
    ⟨_, step_invalidForm_refused⟩, ⟨_, step_topOfSpace_refused⟩, ⟨_, step_notAdmitted_refused⟩,
    ⟨_, step_misalignedPc_refused⟩, ⟨_, step_lastWord_refused⟩⟩

end Sys2Proof.Machine

/-! ### The register file (10_state.md R10, R11) -/

namespace Sys2Proof.Machine

/-- R11: a register holds what was last written to it. -/
@[simp] theorem gpr_setGpr_self (s : State) (i : Gpr) (v : Doubleword) : (s.setGpr i v).gpr i = v := by
  simp [State.gpr]

/-- A write to one register leaves the others alone. -/
theorem gpr_setGpr_of_ne (s : State) {i j : Gpr} (v : Doubleword) (h : i ≠ j) :
    (s.setGpr i v).gpr j = s.gpr j := by
  have hval : (i : Nat) ≠ j := Fin.val_ne_of_ne h
  simp [State.gpr, Vector.getElem_set_ne, hval]

/-- What a register reads as after a write to any register. -/
theorem gpr_setGpr (s : State) (i j : Gpr) (v : Doubleword) :
    (s.setGpr i v).gpr j = if i = j then v else s.gpr j := by
  split
  · next h => rw [h, gpr_setGpr_self]
  · next h => exact gpr_setGpr_of_ne s v h

/-- Settles O10: each register, `r0` included, holds what was last written to it. -/
theorem everyRegisterHoldsWhatWasLastWritten : Obligations.EveryRegisterHoldsWhatWasLastWritten :=
  fun s i _ v => ⟨gpr_setGpr_self s i v, gpr_setGpr_of_ne s v⟩

end Sys2Proof.Machine

/-! ### The canonical form represents every contents of the byte array, and each once (10_state.md R18, R20; log 3) -/

namespace Sys2Proof.Machine

/-- Settles O13, by the reads of a memory after a store. -/
theorem byteWrittenIsByteReadElsewhereUnchanged : Obligations.ByteWrittenIsByteReadElsewhereUnchanged :=
  fun _ a b v hwf => byteAt_setByte a b v hwf

theorem lookup_cons (k : Nat) (v : Byte) (m : Memory) (a : Nat) :
    Memory.lookup ((k, v) :: m) a = if k = a then v else Memory.lookup m a := rfl

/-- In canonical form the entry at the head is read back, and it is no byte of an unlisted address. -/
theorem lookup_head_ne_unlisted {low k : Nat} {v : Byte} {m : Memory}
    (h : Memory.wfFrom low ((k, v) :: m) = true) : Memory.lookup ((k, v) :: m) k ≠ Memory.unlisted := by
  obtain ⟨-, -, hv, -⟩ := (wfFrom_cons_iff ..).1 h
  simpa [lookup_cons] using hv

/-- Of two memories in canonical form that read alike, neither begins at a lower address than the other. -/
theorem head_le_of_lookup_eq {low k l : Nat} {v w : Byte} {m n : Memory}
    (hm : Memory.wfFrom low ((k, v) :: m) = true) (hn : Memory.wfFrom low ((l, w) :: n) = true)
    (heq : ∀ a, a < 2 ^ 32 → Memory.lookup ((k, v) :: m) a = Memory.lookup ((l, w) :: n) a) : l ≤ k := by
  obtain ⟨-, hk, -, -⟩ := (wfFrom_cons_iff ..).1 hm
  obtain ⟨-, hl, hw, hn'⟩ := (wfFrom_cons_iff ..).1 hn
  by_contra hlt
  have hfrom : Memory.wfFrom (k + 1) ((l, w) :: n) = true := (wfFrom_cons_iff ..).2 ⟨by omega, hl, hw, hn'⟩
  exact lookup_head_ne_unlisted hm ((heq k hk).trans (lookup_of_lt hfrom (Nat.lt_succ_self k)))

/-- Two memories in canonical form that read alike at every 32-bit address are equal. -/
theorem eq_of_lookup_eq {low : Nat} {m n : Memory} (hm : Memory.wfFrom low m = true)
    (hn : Memory.wfFrom low n = true) (heq : ∀ a, a < 2 ^ 32 → m.lookup a = n.lookup a) : m = n := by
  induction m generalizing low n with
  | nil =>
    cases n with
    | nil => rfl
    | cons e n =>
      obtain ⟨l, w⟩ := e
      obtain ⟨-, hl, -, -⟩ := (wfFrom_cons_iff ..).1 hn
      exact absurd (heq l hl).symm (lookup_head_ne_unlisted hn)
  | cons e m ih =>
    obtain ⟨k, v⟩ := e
    obtain ⟨-, hk, -, hm'⟩ := (wfFrom_cons_iff ..).1 hm
    cases n with
    | nil => exact absurd (heq k hk) (lookup_head_ne_unlisted hm)
    | cons e n =>
      obtain ⟨l, w⟩ := e
      obtain ⟨-, -, -, hn'⟩ := (wfFrom_cons_iff ..).1 hn
      obtain rfl : k = l :=
        le_antisymm (head_le_of_lookup_eq hn hm fun a ha => (heq a ha).symm) (head_le_of_lookup_eq hm hn heq)
      obtain rfl : v = w := by simpa [lookup_cons] using heq k hk
      have htail : ∀ a, a < 2 ^ 32 → Memory.lookup m a = Memory.lookup n a := fun a ha => by
        by_cases hka : k = a
        · rw [lookup_of_lt hm' (by omega), lookup_of_lt hn' (by omega)]
        · simpa [lookup_cons, hka] using heq a ha
      rw [ih hm' hn' htail]

/-- Settles O15, by induction on the two lists: their heads agree, and below its first key a list reads as unlisted. -/
theorem canonicalMemoriesThatReadAlikeAreEqual : Obligations.CanonicalMemoriesThatReadAlikeAreEqual :=
  fun m n hm hn heq => eq_of_lookup_eq hm hn fun a ha => by
    have hread : m.lookup (BitVec.ofNat 32 a).toNat = n.lookup (BitVec.ofNat 32 a).toNat := heq (BitVec.ofNat 32 a)
    rwa [BitVec.toNat_ofNat, Nat.mod_eq_of_lt ha] at hread

/-- The first `k` bytes of any contents, with nothing listed above them, are some memory in canonical form. -/
theorem exists_wf_byteAt_eq_below (f : Addr → Byte) (k : Nat) (hk : k ≤ 2 ^ 32) :
    ∃ m : Memory, m.wf = true ∧ ∀ a : Addr, m.byteAt a = if a.toNat < k then f a else Memory.unlisted := by
  induction k with
  | zero => exact ⟨[], rfl, fun _ => rfl⟩
  | succ k ih =>
    obtain ⟨m, hwf, hm⟩ := ih (by omega)
    refine ⟨m.setByte (BitVec.ofNat 32 k) (f (BitVec.ofNat 32 k)), setByte_wf _ _ hwf, fun a => ?_⟩
    rw [byteAt_setByte _ _ _ hwf, hm]
    by_cases ha : a = BitVec.ofNat 32 k
    · have hlt : a.toNat < k + 1 := by bv_omega
      rw [if_pos ha, if_pos hlt, ha]
    · have hiff : a.toNat < k + 1 ↔ a.toNat < k := by bv_omega
      simp only [ha, hiff, if_false]

/-- Settles O16, by storing the bytes of the contents one address after the other. -/
theorem everyMemoryContentsIsRepresented : Obligations.EveryMemoryContentsIsRepresented := fun f => by
  obtain ⟨m, hwf, hm⟩ := exists_wf_byteAt_eq_below f (2 ^ 32) le_rfl
  exact ⟨m, hwf, fun a => by rw [hm a, if_pos a.isLt]⟩

end Sys2Proof.Machine

/-! ### What an instruction writes, and what it leaves alone (10_state.md R12, R19) -/

namespace Sys2Proof.Machine

/-- An instruction that updates no base writes RT alone. -/
theorem registerWrites_of_updatedGpr_none {i : Instr} (h : updatedGpr i = none) (ea : Addr) (v : Doubleword)
    (s : State) : registerWrites i ea v s = s.setGpr (targetGpr i) v := by
  cases i with
  | ld rt ds ra => rfl
  | ldu rt ds ra => simp [updatedGpr] at h
  | ldux rt ra rb => simp [updatedGpr] at h
  | ldx rt ra rb => rfl

/-- An instruction that updates its base writes RT first and RA second. -/
theorem registerWrites_of_updatedGpr_some {i : Instr} {ra : Gpr} (h : updatedGpr i = some ra) (ea : Addr)
    (v : Doubleword) (s : State) :
    registerWrites i ea v s = (s.setGpr (targetGpr i) v).setGpr ra (ea.setWidth 64) := by
  cases i with
  | ld rt ds ra' => simp [updatedGpr] at h
  | ldu rt ds ra' => obtain rfl : ra' = ra := Option.some.inj h; rfl
  | ldux rt ra' rb => obtain rfl : ra' = ra := Option.some.inj h; rfl
  | ldx rt ra' rb => simp [updatedGpr] at h

/-- The registers after the register writes: RA, written last, is the address, RT the doubleword, the others stay. -/
theorem gpr_registerWrites (i : Instr) (ea : Addr) (v : Doubleword) (s : State) (r : Gpr) :
    (registerWrites i ea v s).gpr r =
      if updatedGpr i = some r then ea.setWidth 64 else if targetGpr i = r then v else s.gpr r := by
  cases h : updatedGpr i with
  | none => simp [registerWrites_of_updatedGpr_none h, gpr_setGpr]
  | some ra =>
    rw [registerWrites_of_updatedGpr_some h, gpr_setGpr, gpr_setGpr]
    by_cases hra : ra = r <;> simp [hra]

/-- The register writes touch the register file alone. -/
theorem registerWrites_eq_with_gprs (i : Instr) (ea : Addr) (v : Doubleword) (s : State) :
    registerWrites i ea v s = { s with gprs := (registerWrites i ea v s).gprs } := by
  cases i <;> rfl

theorem mem_writtenGprs_iff (i : Instr) (r : Gpr) :
    r ∈ writtenGprs i ↔ updatedGpr i = some r ∨ targetGpr i = r := by
  simp [writtenGprs, or_comm, eq_comm]

/-- A register that the instruction does not write stays. -/
theorem gpr_registerWrites_of_not_mem {i : Instr} {r : Gpr} (ea : Addr) (v : Doubleword) (s : State)
    (h : r ∉ writtenGprs i) : (registerWrites i ea v s).gpr r = s.gpr r := by
  obtain ⟨hbase, htarget⟩ := not_or.1 fun h' => h ((mem_writtenGprs_iff i r).2 h')
  rw [gpr_registerWrites, if_neg hbase, if_neg htarget]

/-- What a register that the instruction writes then holds does not depend on the registers before. -/
theorem gpr_registerWrites_of_mem {i : Instr} {r : Gpr} (ea : Addr) (v : Doubleword) (s s' : State)
    (h : r ∈ writtenGprs i) : (registerWrites i ea v s').gpr r = (registerWrites i ea v s).gpr r := by
  simp only [gpr_registerWrites]
  rcases (mem_writtenGprs_iff i r).1 h with hbase | htarget
  · simp [hbase]
  · simp [htarget]

/-- R19: the register writes and the new pc change nothing but the written registers and the pc. -/
theorem sameExcept_registerWrites (i : Instr) (ea pc : Addr) (v : Doubleword) (s : State) :
    SameExcept (writtenGprs i) s ((registerWrites i ea v s).setPc pc) := by
  refine ⟨fun r hr => gpr_registerWrites_of_not_mem ea v s hr, ?_⟩
  rw [registerWrites_eq_with_gprs]
  exact ⟨fun _ => rfl, rfl, ⟨rfl, rfl⟩, rfl, rfl, rfl⟩

/-- A read below the top of the space that `Admit` allows gives the eight bytes. -/
theorem load8_of_admits {s : State} {ea : Addr} (htop : ea.toNat ≤ 0xFFFFFFF8)
    (hadm : s.admits ea 8 .data = true) : load8 s ea = .ok (s.mem.read8 ea) := by
  simp [load8, hadm, Nat.not_lt.2 htop]

theorem completeLoad_of_canLoad {s : State} {ea : Addr} (h : CanLoad s ea)
    (writes : Doubleword → State → State) :
    completeLoad s ea writes = .next ((writes (s.mem.read8 ea) s).setPc (s.pc + 4)) := by
  obtain ⟨htop, hadm, hpc⟩ := h
  simp [completeLoad, load8_of_admits htop hadm, nextPc, hpc]

/-- A load is refused by its read, or, once the bytes are read, by the advance of the pc. -/
theorem completeLoad_refused_iff (s : State) (ea : Addr) (writes : Doubleword → State → State) (r : Refusal) :
    completeLoad s ea writes = .refused r ↔
      load8 s ea = .error r ∨ (∃ v, load8 s ea = .ok v) ∧ nextPc s = .error r := by
  cases hload : load8 s ea with
  | error r' => simp [completeLoad, hload]
  | ok v => cases hpc : nextPc s <;> simp [completeLoad, hload, hpc]

/-- An instruction completes exactly where its form runs and nothing stands in the way of its load; the state it then
gives has its registers written and the pc advanced. -/
theorem exec_next_iff (i : Instr) (s t : State) :
    exec i s = .next t ↔ FormRuns i s ∧ CanLoad s (effectiveAddress i s) ∧
      t = (registerWrites i (effectiveAddress i s) (s.mem.read8 (effectiveAddress i s)) s).setPc (s.pc + 4) := by
  by_cases hruns : FormRuns i s
  · rw [exec_of_formRuns hruns]
    constructor
    · intro h
      obtain ⟨htop, hadm, hpc, ht⟩ := completeLoad_next h
      exact ⟨hruns, ⟨htop, hadm, hpc⟩, ht⟩
    · rintro ⟨-, hload, rfl⟩
      exact completeLoad_of_canLoad hload _
  · simp [exec_of_not_formRuns hruns, hruns]

/-- An instruction is refused for its form, or, where its form runs, by its read or by the advance of the pc. -/
theorem exec_refused_iff (i : Instr) (s : State) (r : Refusal) :
    exec i s = .refused r ↔
      (¬ FormRuns i s ∧ r = .invalidForm) ∨
      (FormRuns i s ∧ (load8 s (effectiveAddress i s) = .error r ∨
        (∃ v, load8 s (effectiveAddress i s) = .ok v) ∧ nextPc s = .error r)) := by
  by_cases hruns : FormRuns i s
  · simp [exec_of_formRuns hruns, completeLoad_refused_iff, hruns]
  · simp [exec_of_not_formRuns hruns, hruns, eq_comm]

end Sys2Proof.Machine

/-! ### What an instruction does depends on no other register than those it reads (10_state.md R12) -/

namespace Sys2Proof.Machine

/-- Two states that an instruction cannot tell apart: the same pc, memory and platform, and the same contents of the
registers of R12 that it reads. -/
structure ReadsAgree (i : Instr) (s s' : State) : Prop where
  pc : s'.pc = s.pc
  mem : s'.mem = s.mem
  platform : s'.platform = s.platform
  gpr : ∀ r, r ∈ readGprs i → s'.gpr r = s.gpr r

section
variable {i : Instr} {s s' : State}

/-- Whether a form runs is a matter of the policy alone. -/
theorem formRuns_congr (h : s'.platform = s.platform) : FormRuns i s' ↔ FormRuns i s := by
  cases i <;> simp [FormRuns, h]

theorem admits_congr (h : s'.platform = s.platform) (a : Addr) (n : Nat) (kind : AccessKind) :
    s'.admits a n kind = s.admits a n kind := by
  simp [State.admits, h]

/-- The base of an `RA0` operand: register 0 is not read. -/
theorem base0_congr {ra : Gpr} (h : ra ≠ 0 → s'.gpr ra = s.gpr ra) : base0 s' ra = base0 s ra := by
  by_cases hra : ra = 0
  · simp [hra]
  · rw [base0_of_ne_zero s' hra, base0_of_ne_zero s hra, h hra]

/-- The effective address is formed from the registers that R12 lists. -/
theorem effectiveAddress_congr (h : ∀ r, r ∈ readGprs i → s'.gpr r = s.gpr r) :
    effectiveAddress i s' = effectiveAddress i s := by
  cases i with
  | ld rt ds ra =>
    have hbase : base0 s' ra = base0 s ra := base0_congr fun hra => h ra (by simp [readGprs, hra])
    simp [effectiveAddress, eaLd, hbase]
  | ldu rt ds ra =>
    have hbase : s'.gpr ra = s.gpr ra := h ra (by simp [readGprs])
    simp [effectiveAddress, eaLdu, hbase]
  | ldux rt ra rb =>
    have hbase : s'.gpr ra = s.gpr ra := h ra (by simp [readGprs])
    have hindex : s'.gpr rb = s.gpr rb := h rb (by simp [readGprs])
    simp [effectiveAddress, eaLdux, hbase, hindex]
  | ldx rt ra rb =>
    have hbase : base0 s' ra = base0 s ra := base0_congr fun hra => h ra (by simp [readGprs, hra])
    have hindex : s'.gpr rb = s.gpr rb := h rb (by by_cases hra : ra = 0 <;> simp [readGprs, hra])
    simp [effectiveAddress, eaLdx, hbase, hindex]

theorem load8_congr (hmem : s'.mem = s.mem) (hplat : s'.platform = s.platform) (ea : Addr) :
    load8 s' ea = load8 s ea := by
  simp [load8, admits_congr hplat, hmem]

theorem nextPc_congr (h : s'.pc = s.pc) : nextPc s' = nextPc s := by
  simp [nextPc, h]

theorem canLoad_congr (hpc : s'.pc = s.pc) (hplat : s'.platform = s.platform) (ea : Addr) :
    CanLoad s' ea ↔ CanLoad s ea := by
  simp [CanLoad, admits_congr hplat, hpc]

/-- Where the registers read agree, an instruction is refused in both states for the same reason or in neither. -/
theorem exec_refused_congr (h : ReadsAgree i s s') (r : Refusal) :
    exec i s' = .refused r ↔ exec i s = .refused r := by
  rw [exec_refused_iff, exec_refused_iff, formRuns_congr h.platform, effectiveAddress_congr h.gpr,
    load8_congr h.mem h.platform, nextPc_congr h.pc]

/-- Where the registers read agree, an instruction that completes in one state completes in the other, with the same pc
and the same contents of the registers written. -/
theorem exec_next_congr (h : ReadsAgree i s s') {t : State} (ht : exec i s = .next t) :
    ∃ t', exec i s' = .next t' ∧ t'.pc = t.pc ∧ ∀ r, r ∈ writtenGprs i → t'.gpr r = t.gpr r := by
  obtain ⟨hruns, hload, rfl⟩ := (exec_next_iff ..).1 ht
  have hea : effectiveAddress i s' = effectiveAddress i s := effectiveAddress_congr h.gpr
  have hload' : CanLoad s' (effectiveAddress i s') := by rwa [hea, canLoad_congr h.pc h.platform]
  refine ⟨_, (exec_next_iff ..).2 ⟨(formRuns_congr h.platform).2 hruns, hload', rfl⟩, ?_, fun r hr => ?_⟩
  · simp [h.pc]
  · rw [hea, h.mem]
    exact gpr_registerWrites_of_mem _ _ s s' hr

end

/-- An instruction that completes changes its written registers and the pc, which advances by 4. -/
theorem exec_next_frame {i : Instr} {s t : State} (h : exec i s = .next t) :
    SameExcept (writtenGprs i) s t ∧ t.pc = s.pc + 4 := by
  obtain ⟨-, -, rfl⟩ := (exec_next_iff ..).1 h
  exact ⟨sameExcept_registerWrites .., rfl⟩

/-- Settles O25: the address depends on the registers read alone, and the written registers on the address and memory. -/
theorem instructionReadsAndWritesOnlyItsRegisters : Obligations.InstructionReadsAndWritesOnlyItsRegisters := by
  intro i s s' hpc hmem hplat hgpr
  have hagree : ReadsAgree i s s' := ⟨hpc, hmem, hplat, hgpr⟩
  exact ⟨fun r hr => (exec_refused_congr hagree r).2 hr,
    fun t ht => ⟨(exec_next_frame ht).1, exec_next_congr hagree ht⟩⟩

end Sys2Proof.Machine

/-! ### What a step leaves alone, and the program counter (10_state.md R14, R19; 40_load_doubleword.md R70, R79) -/

namespace Sys2Proof.Machine

/-- R70: a step completes exactly where a word can be fetched, decodes, and its instruction completes. -/
theorem step_next_iff (s t : State) :
    step s = .next t ↔ CanFetch s ∧ ∃ i, decodeWord (fetchWord s) = .ok i ∧ exec i s = .next t := by
  rcases fetch_cases s with ⟨hpc, e⟩ | ⟨hpc, hadm, e⟩ | ⟨hpc, hadm, ⟨r, hdec, e⟩ | ⟨i, hdec, e⟩⟩
  · simp [step, e, CanFetch, hpc]
  · simp [step, e, CanFetch, hadm]
  · simp [step, e, hdec]
  · simp [step, e, CanFetch, hpc, hadm, hdec]

/-- R70: where a word can be fetched and decodes, the step is its instruction's meaning. -/
theorem step_eq_exec {s : State} {i : Instr} (hfetch : CanFetch s) (hdec : decodeWord (fetchWord s) = .ok i) :
    step s = exec i s := by
  obtain ⟨hpc, hadm⟩ := hfetch
  simp [step, fetch, hpc, hadm, hdec]

/-- Settles O39, by the frame of the instruction that the step runs. -/
theorem stepChangesOnlyTargetBaseAndPc : Obligations.StepChangesOnlyTargetBaseAndPc := by
  intro s t h
  obtain ⟨-, i, hdec, hexec⟩ := (step_next_iff s t).1 h
  exact ⟨i, hdec, exec_next_frame hexec⟩

/-- Four bytes on from an aligned address other than the last word's there is no wrap. -/
theorem toNat_add_four {a : Addr} (hal : a.toNat % 4 = 0) (hne : a ≠ 0xFFFFFFFC#32) :
    (a + 4).toNat = a.toNat + 4 := by
  bv_omega

/-- A step that completes starts at an aligned pc and advances it by 4 without wrapping. -/
theorem step_next_pc {s t : State} (h : step s = .next t) : s.pc.toNat % 4 = 0 ∧ t.pc.toNat = s.pc.toNat + 4 := by
  obtain ⟨⟨hal, -⟩, i, -, hexec⟩ := (step_next_iff s t).1 h
  obtain ⟨-, ⟨-, -, hne⟩, -⟩ := (exec_next_iff ..).1 hexec
  obtain ⟨-, hpc⟩ := exec_next_frame hexec
  exact ⟨hal, by rw [hpc, toNat_add_four hal hne]⟩

/-- At the last word of the space an instruction that nothing else refuses is refused for its pc. -/
theorem exec_lastWord_refused {i : Instr} {s : State} (hpc : s.pc = 0xFFFFFFFC#32) (hruns : FormRuns i s)
    (htop : (effectiveAddress i s).toNat ≤ 0xFFFFFFF8) (hadm : s.admits (effectiveAddress i s) 8 .data = true) :
    exec i s = .refused .pcOverflow :=
  (exec_refused_iff ..).2 (.inr ⟨hruns, .inr ⟨⟨_, load8_of_admits htop hadm⟩, if_pos hpc⟩⟩)

/-- Settles O38: the fetch asks for an aligned pc, and the advance of the pc refuses the last word of the space. -/
theorem stepNeverWrapsProgramCounter : Obligations.StepNeverWrapsProgramCounter := by
  refine ⟨fun _ _ h => step_next_pc h, fun s i hpc hfetch hdec hruns htop hadm => ?_⟩
  have hcan : CanFetch s := ⟨by rw [hpc]; rfl, hfetch⟩
  rw [step_eq_exec hcan hdec]
  exact exec_lastWord_refused hpc hruns htop hadm

end Sys2Proof.Machine

/-! ### What a step keeps, and what a run then keeps (10_state.md R18, 20_memory.md R35, R39) -/

namespace Sys2Proof.Machine

/-- No instruction in scope writes memory. -/
theorem step_next_mem {s t : State} (h : step s = .next t) : t.mem = s.mem := by
  obtain ⟨-, i, -, hexec⟩ := (step_next_iff s t).1 h
  obtain ⟨⟨-, -, hmem, -⟩, -⟩ := exec_next_frame hexec
  exact hmem

/-- R4: the arguments of a run are fixed. -/
theorem step_next_platform {s t : State} (h : step s = .next t) : t.platform = s.platform := by
  obtain ⟨-, i, -, hexec⟩ := (step_next_iff s t).1 h
  obtain ⟨⟨-, -, -, -, -, -, hplat⟩, -⟩ := exec_next_frame hexec
  exact hplat

/-- R35: a step that completes leaves the pc a multiple of 4. -/
theorem step_next_pc_aligned {s t : State} (h : step s = .next t) : t.pc.toNat % 4 = 0 := by
  obtain ⟨hal, hpc⟩ := step_next_pc h
  omega

/-- Settles O41: the pc advances by 4 without wrapping, and memory stays. -/
theorem everyStepKeepsTheInvariant : Obligations.EveryStepKeepsTheInvariant := by
  rintro s t ⟨-, hwf⟩ h
  refine ⟨step_next_pc_aligned h, ?_⟩
  rwa [step_next_mem h]

/-- A run of `k + 1` steps is a step that completes and a run of `k` steps from there. -/
theorem stepsTo_succ_iff (k : Nat) (s t : State) :
    stepsTo (k + 1) s = some t ↔ ∃ u, step s = .next u ∧ stepsTo k u = some t := by
  cases h : step s <;> simp [stepsTo, h]

/-- What every step keeps, every run keeps. -/
theorem stepsTo_induct {P : State → Prop} (hstep : ∀ s t, P s → step s = .next t → P t) {k : Nat} {s t : State}
    (hs : P s) (h : stepsTo k s = some t) : P t := by
  induction k generalizing s with
  | zero =>
    obtain rfl : s = t := Option.some.inj h
    exact hs
  | succ k ih =>
    obtain ⟨u, hu, hrest⟩ := (stepsTo_succ_iff ..).1 h
    exact ih (hstep s u hs hu) hrest

end Sys2Proof.Machine

/-! ### Which test refuses a step (20_memory.md R35, R38, R39; 60_exceptions.md R94) -/

namespace Sys2Proof.Machine

/-- R38: a read is refused `TopOfSpace` exactly above 0xFFFFFFF8. -/
theorem load8_topOfSpace_iff (s : State) (ea : Addr) : load8 s ea = .error .topOfSpace ↔ 0xFFFFFFF8 < ea.toNat := by
  rcases load8_cases s ea with ⟨htop, e⟩ | ⟨htop, -, e⟩ | ⟨htop, -, e⟩ <;> simp [e, htop]

/-- R39: below the top of the space a read that `Admit` rejects is refused `NotAdmitted`. -/
theorem load8_of_not_admits {s : State} {ea : Addr} (htop : ea.toNat ≤ 0xFFFFFFF8)
    (hadm : s.admits ea 8 .data = false) : load8 s ea = .error .notAdmitted := by
  simp [load8, hadm, Nat.not_lt.2 htop]

/-- The advance of the pc refuses for one reason alone. -/
theorem eq_pcOverflow_of_nextPc_error {s : State} {r : Refusal} (h : nextPc s = .error r) : r = .pcOverflow := by
  rcases nextPc_cases s with ⟨-, e⟩ | ⟨-, e⟩
  · simpa [e, eq_comm] using h
  · simp [e] at h

theorem load8_ne_fetchMisaligned (s : State) (ea : Addr) : load8 s ea ≠ .error .fetchMisaligned := by
  rcases load8_cases s ea with ⟨-, e⟩ | ⟨-, -, e⟩ | ⟨-, -, e⟩ <;> simp [e]

/-- No instruction refuses for a misaligned pc: that test is the fetch's. -/
theorem exec_ne_fetchMisaligned (i : Instr) (s : State) : exec i s ≠ .refused .fetchMisaligned := by
  intro h
  rcases (exec_refused_iff ..).1 h with ⟨-, hr⟩ | ⟨-, hload | ⟨-, hpc⟩⟩
  · cases hr
  · exact load8_ne_fetchMisaligned _ _ hload
  · cases eq_pcOverflow_of_nextPc_error hpc

/-- A form that runs is refused `TopOfSpace` exactly where its address is above 0xFFFFFFF8. -/
theorem exec_topOfSpace_iff {i : Instr} {s : State} (hruns : FormRuns i s) :
    exec i s = .refused .topOfSpace ↔ 0xFFFFFFF8 < (effectiveAddress i s).toNat := by
  rw [exec_refused_iff, ← load8_topOfSpace_iff s]
  constructor
  · rintro (⟨-, hr⟩ | ⟨-, hload | ⟨-, hpc⟩⟩)
    · cases hr
    · exact hload
    · cases eq_pcOverflow_of_nextPc_error hpc
  · exact fun hload => .inr ⟨hruns, .inl hload⟩

/-- R35: a step is refused for its alignment exactly at a pc that is no multiple of 4. -/
theorem step_fetchMisaligned_iff (s : State) : step s = .refused .fetchMisaligned ↔ s.pc.toNat % 4 ≠ 0 := by
  rcases fetch_cases s with ⟨hpc, e⟩ | ⟨hpc, -, e⟩ | ⟨hpc, -, ⟨r, -, e⟩ | ⟨i, -, e⟩⟩
  · simp [step, e, hpc]
  · simp [step, e, hpc]
  · cases r <;> simp [step, e, hpc, refusalOfReject]
  · simp [step, e, hpc, exec_ne_fetchMisaligned]

/-- R39: a step at an aligned pc that `Admit` rejects for a fetch is refused `NotAdmitted`. -/
theorem step_of_fetch_not_admits {s : State} (hpc : s.pc.toNat % 4 = 0) (hadm : s.admits s.pc 4 .fetch = false) :
    step s = .refused .notAdmitted := by
  simp [step, fetch, hpc, hadm]

/-- Settles O43: the fetch alone tests the alignment, and every step leaves the pc aligned. -/
theorem alignedRunNeverRefusesForMisalignment : Obligations.AlignedRunNeverRefusesForMisalignment := by
  refine ⟨fun s => (step_fetchMisaligned_iff s).2, fun k s t hs hrun hmis => ?_⟩
  have hal : t.pc.toNat % 4 = 0 :=
    stepsTo_induct (P := fun s => s.pc.toNat % 4 = 0) (fun _ _ _ h => step_next_pc_aligned h) hs hrun
  exact (step_fetchMisaligned_iff t).1 hmis hal

/-- Settles O27: `EA + 7` fits in 32 bits exactly up to 0xFFFFFFF8, where the read is refused for its address. -/
theorem readBeyondTopOfSpaceIsRefused : Obligations.ReadBeyondTopOfSpaceIsRefused := by
  intro i s hruns
  refine ⟨fun hbeyond => (exec_topOfSpace_iff hruns).2 (by omega), (exec_topOfSpace_iff hruns).1,
    fun hea hadm hpc => ?_⟩
  have hload : CanLoad s (effectiveAddress i s) := by
    rw [hea]
    exact ⟨le_rfl, hadm, hpc⟩
  exact ⟨_, (exec_next_iff ..).2 ⟨hruns, hload, rfl⟩⟩

/-- Settles O28: the fetch and the read each ask `Admit`, and no step changes the platform. -/
theorem accessNotAdmittedIsRefused : Obligations.AccessNotAdmittedIsRefused := by
  refine fun s => ⟨step_of_fetch_not_admits, fun i hfetch hdec hruns htop hadm => ?_, fun t h => ?_⟩
  · rw [step_eq_exec hfetch hdec]
    exact (exec_refused_iff ..).2 (.inr ⟨hruns, .inl (load8_of_not_admits htop hadm)⟩)
  · obtain ⟨⟨-, hfetch⟩, i, hdec, hexec⟩ := (step_next_iff s t).1 h
    obtain ⟨-, ⟨-, hdata, -⟩, -⟩ := (exec_next_iff ..).1 hexec
    exact ⟨hfetch, ⟨i, hdec, hdata⟩, admits_congr (step_next_platform h)⟩

end Sys2Proof.Machine

/-! ### Every `Admit` is that of some platform (20_memory.md R39) -/

namespace Sys2Proof.Machine

/-- The window of the one access of `n` bytes at `a`. -/
def accessWindow (kind : AccessKind) (n : Nat) (a : Addr) : Window := ⟨kind, a.toNat, a.toNat + n - 1⟩

/-- The window of one access admits, of the accesses of its size, that one alone. -/
theorem accessWindow_admits_iff {n : Nat} (hn : 0 < n) (kind kind' : AccessKind) (a b : Addr) :
    Window.admits (accessWindow kind n a) b n kind' = true ↔ kind = kind' ∧ a = b := by
  have hbytes : a.toNat ≤ b.toNat ∧ b.toNat + n ≤ a.toNat + n - 1 + 1 ↔ a = b := by bv_omega
  unfold accessWindow Window.admits
  simp [and_assoc, hbytes]

/-- A window admits no access of another kind. -/
theorem accessWindow_not_admits {kind kind' : AccessKind} (h : kind ≠ kind') (n n' : Nat) (a b : Addr) :
    Window.admits (accessWindow kind n a) b n' kind' = false := by
  simp [accessWindow, Window.admits, h]

/-- The map that admits 8-byte data accesses at the addresses `ds` and 4-byte fetches at the addresses `fs`. -/
def mapOfAddresses (ds fs : List Addr) : List Window :=
  ds.map (accessWindow .data 8) ++ fs.map (accessWindow .fetch 4)

theorem admits_data_of_mapOfAddresses {s : State} {ds fs : List Addr} (h : s.platform.admitMap = mapOfAddresses ds fs)
    (a : Addr) : s.admits a 8 .data = true ↔ a ∈ ds := by
  simp [State.admits, h, mapOfAddresses, accessWindow_admits_iff,
    accessWindow_not_admits (kind := .fetch) (kind' := .data)]

theorem admits_fetch_of_mapOfAddresses {s : State} {ds fs : List Addr} (h : s.platform.admitMap = mapOfAddresses ds fs)
    (a : Addr) : s.admits a 4 .fetch = true ↔ a ∈ fs := by
  simp [State.admits, h, mapOfAddresses, accessWindow_admits_iff,
    accessWindow_not_admits (kind := .data) (kind' := .fetch)]

/-- The address space is finite, so that a predicate on addresses can be written as a list. -/
theorem exists_addresses_of_predicate (p : Addr → Bool) : ∃ as : List Addr, ∀ a, a ∈ as ↔ p a = true :=
  ⟨((List.finRange (2 ^ 32)).map BitVec.ofFin).filter p, fun a => by
    have hmem : a ∈ (List.finRange (2 ^ 32)).map BitVec.ofFin :=
      List.mem_map.2 ⟨a.toFin, List.mem_finRange _, rfl⟩
    simp only [List.mem_filter, hmem, true_and]⟩

/-- Settles O17, by one window for each access that a predicate admits. -/
theorem everyAdmitPredicateIsRepresented : Obligations.EveryAdmitPredicateIsRepresented := fun f g => by
  obtain ⟨ds, hds⟩ := exists_addresses_of_predicate f
  obtain ⟨fs, hfs⟩ := exists_addresses_of_predicate g
  refine ⟨mapOfAddresses ds fs, fun s a hmap => ⟨?_, ?_⟩⟩
  · rw [Bool.eq_iff_iff, admits_data_of_mapOfAddresses hmap, hds]
  · rw [Bool.eq_iff_iff, admits_fetch_of_mapOfAddresses hmap, hfs]

end Sys2Proof.Machine

/-! ### The bytes of a read (20_memory.md R31, R32) -/

namespace Sys2Proof.Machine

/-- R31: the first of four bytes supplies the most significant bits of the word, and so on. -/
theorem bytesOfWord_wordOfBytes (b0 b1 b2 b3 : Byte) : bytesOfWord (wordOfBytes b0 b1 b2 b3) = [b0, b1, b2, b3] := by
  simp (disch := decide) only [bytesOfWord, wordOfBytes, BitVec.extractLsb'_append_eq_of_le,
    BitVec.extractLsb'_append_eq_right, Nat.reduceSub, BitVec.extractLsb'_eq_self]

/-- R31: the entry at `i` of a word's bytes is the byte that `i` places after the first supplies. -/
theorem bytesOfWord_getElem (w : Word) (i : Nat) (hi : i < 4) :
    (bytesOfWord w)[i]'hi = w.extractLsb' (24 - 8 * i) 8 := by
  interval_cases i <;> rfl

/-- R31: the bits of a word read that the byte at `a + i` supplies. -/
theorem extractLsb'_read4 (m : Memory) (a : Addr) {i : Nat} (hi : i < 4) :
    (m.read4 a).extractLsb' (24 - 8 * i) 8 = m.byteAt (a + BitVec.ofNat 32 i) := by
  rw [← bytesOfWord_getElem _ i hi]
  simp only [Memory.read4, bytesOfWord_wordOfBytes]
  interval_cases i <;> simp

/-- R32: the word at `a` and then the word at `a + 4` hold the eight bytes at `a`. -/
theorem holdsBytesAt_read4_append (m : Memory) (a : Addr) : HoldsBytesAt m a (m.read4 a ++ m.read4 (a + 4)) := by
  intro i hi
  by_cases hlo : i < 4
  · rw [BitVec.extractLsb'_append_eq_of_le (by omega), ← extractLsb'_read4 m a hlo]
    congr 1
    omega
  · have haddr : a + BitVec.ofNat 32 i = a + 4 + BitVec.ofNat 32 (i - 4) := by bv_omega
    rw [BitVec.extractLsb'_append_eq_of_add_le (by omega), haddr, ← extractLsb'_read4 m (a + 4) (by omega)]
    congr 1
    omega

/-- R32: a doubleword read is two word reads, the upper half first. -/
theorem read8_eq_read4_append (m : Memory) (a : Addr) : m.read8 a = m.read4 a ++ m.read4 (a + 4) :=
  read8_of_holdsBytesAt (holdsBytesAt_read4_append m a)

/-- R31: what an 8-byte read gives is the eight bytes, most significant first. -/
theorem holdsBytesAt_read8 (m : Memory) (a : Addr) : HoldsBytesAt m a (m.read8 a) := by
  rw [read8_eq_read4_append]
  exact holdsBytesAt_read4_append m a

/-- Settles O11, by the bytes of the two word reads that a doubleword read is. -/
theorem readAssemblesBytesMostSignificantFirst : Obligations.ReadAssemblesBytesMostSignificantFirst :=
  fun m a => ⟨holdsBytesAt_read8 m a, fun _ hi => extractLsb'_read4 m a hi⟩

/-- Settles O12, since a doubleword read is two word reads. -/
theorem wordReadsAreHalvesOfDoublewordRead : Obligations.WordReadsAreHalvesOfDoublewordRead := by
  intro m ea
  rw [read8_eq_read4_append]
  exact ⟨BitVec.extractLsb'_append_eq_left.symm, BitVec.extractLsb'_append_eq_right.symm⟩

end Sys2Proof.Machine

/-! ### The word placed at the program counter (20_memory.md R33; log 24) -/

namespace Sys2Proof.Machine

/-- R33: the four bytes of a word, read most significant first, are the word. -/
theorem wordOfBytes_extractLsb' (w : Word) :
    wordOfBytes (w.extractLsb' 24 8) (w.extractLsb' 16 8) (w.extractLsb' 8 8) (w.extractLsb' 0 8) = w := by
  simp (disch := rfl) only [wordOfBytes, BitVec.extractLsb'_append_extractLsb'_eq_extractLsb',
    BitVec.extractLsb'_eq_self]

/-- A word that `MemWrite(addr, 4, w)` stores is read back. -/
theorem read4_write4 {m : Memory} (a : Addr) (w : Word) (h : m.wf = true) : (m.write4 a w).read4 a = w := by
  have byte (i : Nat) (hi : i < 4) : (m.write4 a w).byteAt (a + BitVec.ofNat 32 i) = (bytesOfWord w)[i]'hi :=
    byteAt_setBytes a (bs := bytesOfWord w) h (by simp [bytesOfWord]) hi
  calc (m.write4 a w).read4 a
    _ = wordOfBytes ((m.write4 a w).byteAt (a + BitVec.ofNat 32 0)) ((m.write4 a w).byteAt (a + BitVec.ofNat 32 1))
        ((m.write4 a w).byteAt (a + BitVec.ofNat 32 2)) ((m.write4 a w).byteAt (a + BitVec.ofNat 32 3)) := by
      simp [Memory.read4]
    _ = wordOfBytes (w.extractLsb' 24 8) (w.extractLsb' 16 8) (w.extractLsb' 8 8) (w.extractLsb' 0 8) := by
      rw [byte 0 (by decide), byte 1 (by decide), byte 2 (by decide), byte 3 (by decide)]
      rfl
    _ = w := wordOfBytes_extractLsb' w

/-- `MemWrite(addr, 4, w)` below the top of the space leaves every byte outside its four alone. -/
theorem byteAt_write4_of_outside {m : Memory} {a b : Addr} (w : Word) (h : m.wf = true)
    (ha : a.toNat ≤ 0xFFFFFFFC) (hb : b.toNat < a.toNat ∨ a.toNat + 4 ≤ b.toNat) :
    (m.write4 a w).byteAt b = m.byteAt b := by
  refine byteAt_setBytes_of_ne h fun i (hi : i < 4) => ?_
  have hi32 : (a + BitVec.ofNat 32 i).toNat = a.toNat + i := by bv_omega
  rintro rfl
  omega

/-- Placing a 32-bit word is one write of memory at the pc. -/
theorem withFetchWord_mem (s : State) (w : Word) :
    (s.withFetchWord 32 w.toNat).mem = s.mem.write4 s.pc w := by
  simp [State.withFetchWord, Nat.mod_eq_of_lt w.isLt]

theorem withFetchWord_pc (s : State) (n w : Nat) : (s.withFetchWord n w).pc = s.pc := rfl

/-- Placing a word leaves it open whether one can be fetched: that is a matter of the pc and the platform. -/
theorem canFetch_withFetchWord_iff (s : State) (n w : Nat) : CanFetch (s.withFetchWord n w) ↔ CanFetch s := by
  simp [CanFetch, State.withFetchWord]

theorem fetchWord_withFetchWord {s : State} (w : Word) (h : s.mem.wf = true) :
    fetchWord (s.withFetchWord 32 w.toNat) = w := by
  rw [fetchWord, withFetchWord_mem, withFetchWord_pc, read4_write4 s.pc w h]

/-- Settles O35: the word written at the pc is read back there, and the aligned pc keeps the write below the top. -/
theorem wordPlacedAtPcIsWhatStepRuns : Obligations.WordPlacedAtPcIsWhatStepRuns := by
  intro s w hwf hfetch
  have hword : fetchWord (s.withFetchWord 32 w.toNat) = w := fetchWord_withFetchWord w hwf
  refine ⟨hword, fun i hdec => ?_, fun b hb => ?_⟩
  · exact step_eq_exec ((canFetch_withFetchWord_iff ..).2 hfetch) (by rw [hword, hdec])
  · obtain ⟨hal, -⟩ := hfetch
    have htop : s.pc.toNat ≤ 0xFFFFFFFC := by bv_omega
    rw [withFetchWord_mem]
    exact byteAt_write4_of_outside w hwf htop hb

end Sys2Proof.Machine

/-! ### The fields of an encoded word, and the bytes of an instruction (30_encoding.md R50 to R57) -/

namespace Sys2Proof

/-- R53: the field of a register names it. -/
@[simp] theorem gprOfField_fieldOfGpr (r : Gpr) : gprOfField (fieldOfGpr r) = r := by
  apply Fin.ext
  simp [gprOfField, fieldOfGpr]

theorem dispWellFormed_iff (ds : Int) : dispWellFormed ds = true ↔ ds % 4 = 0 ∧ -32768 ≤ ds ∧ ds ≤ 32764 := by
  simp [dispWellFormed, dispScaled, dispAtLeastMin, dispAtMostMax, and_assoc]

/-- R54: the two bits that the field leaves out are 0 in a multiple of 4. -/
theorem extractLsb'_ofInt_of_scaled {ds : Int} (h : ds % 4 = 0) : (BitVec.ofInt 16 ds).extractLsb' 0 2 = 0#2 := by
  apply BitVec.eq_of_toNat_eq
  simp only [BitVec.extractLsb'_toNat, BitVec.toNat_ofInt, Nat.shiftRight_zero, BitVec.toNat_ofNat]
  omega

/-- R54: the field of a displacement that can be encoded gives it back. -/
theorem dispOfField_fieldOfDisp {ds : Int} (h : dispWellFormed ds = true) : dispOfField (fieldOfDisp ds) = ds := by
  obtain ⟨hscaled, hmin, hmax⟩ := (dispWellFormed_iff ds).1 h
  have hbits : (fieldOfDisp ds ++ 0#2 : BitVec 16) = BitVec.ofInt 16 ds := by
    rw [fieldOfDisp, ← extractLsb'_ofInt_of_scaled hscaled,
      BitVec.extractLsb'_append_extractLsb'_eq_extractLsb' (by rfl), BitVec.extractLsb'_eq_self]
  rw [dispOfField, hbits, BitVec.toInt_ofInt, Int.bmod_eq_of_le (by omega) (by omega)]

section
variable (rt ra rb : Gpr) (ds : Int)

@[simp] theorem fieldRT_encodeDS (xo : BitVec 2) : fieldRT (encodeDS rt ra ds xo) = fieldOfGpr rt := by
  simp (disch := decide) only [fieldRT, encodeDS, BitVec.extractLsb'_append_eq_of_le]
  exact BitVec.extractLsb'_append_eq_right

@[simp] theorem fieldRA_encodeDS (xo : BitVec 2) : fieldRA (encodeDS rt ra ds xo) = fieldOfGpr ra := by
  simp (disch := decide) only [fieldRA, encodeDS, BitVec.extractLsb'_append_eq_of_le]
  exact BitVec.extractLsb'_append_eq_right

@[simp] theorem fieldDS_encodeDS (xo : BitVec 2) : fieldDS (encodeDS rt ra ds xo) = fieldOfDisp ds := by
  simp (disch := decide) only [fieldDS, encodeDS, BitVec.extractLsb'_append_eq_of_le]
  exact BitVec.extractLsb'_append_eq_right

@[simp] theorem fieldXODS_encodeDS (xo : BitVec 2) : fieldXODS (encodeDS rt ra ds xo) = xo :=
  BitVec.extractLsb'_append_eq_right

@[simp] theorem fieldRT_encodeX (xo : BitVec 10) : fieldRT (encodeX rt ra rb xo) = fieldOfGpr rt := by
  simp (disch := decide) only [fieldRT, encodeX, BitVec.extractLsb'_append_eq_of_le]
  exact BitVec.extractLsb'_append_eq_right

@[simp] theorem fieldRA_encodeX (xo : BitVec 10) : fieldRA (encodeX rt ra rb xo) = fieldOfGpr ra := by
  simp (disch := decide) only [fieldRA, encodeX, BitVec.extractLsb'_append_eq_of_le]
  exact BitVec.extractLsb'_append_eq_right

@[simp] theorem fieldRB_encodeX (xo : BitVec 10) : fieldRB (encodeX rt ra rb xo) = fieldOfGpr rb := by
  simp (disch := decide) only [fieldRB, encodeX, BitVec.extractLsb'_append_eq_of_le]
  exact BitVec.extractLsb'_append_eq_right

@[simp] theorem fieldXOX_encodeX (xo : BitVec 10) : fieldXOX (encodeX rt ra rb xo) = xo := by
  simp (disch := decide) only [fieldXOX, encodeX, BitVec.extractLsb'_append_eq_of_le]
  exact BitVec.extractLsb'_append_eq_right

@[simp] theorem fieldRc_encodeX (xo : BitVec 10) : fieldRc (encodeX rt ra rb xo) = 0#1 :=
  BitVec.extractLsb'_append_eq_right

end

/-- R57: the decoder reads back the word of every well-formed instruction. -/
theorem decodeWord_encodeWord {i : Instr} (h : i.wellFormed = true) : decodeWord (encodeWord i) = .ok i := by
  cases i with
  | ld rt ds ra => simp [encodeWord, decodeWord, Laws.fieldOPCD_encodeDS, dispOfField_fieldOfDisp h]
  | ldu rt ds ra => simp [encodeWord, decodeWord, Laws.fieldOPCD_encodeDS, dispOfField_fieldOfDisp h]
  | ldux rt ra rb => simp [encodeWord, decodeWord, Laws.fieldOPCD_encodeX]
  | ldx rt ra rb => simp [encodeWord, decodeWord, Laws.fieldOPCD_encodeX]

/-- R33, R50: the four bytes of a word that decodes, and the bytes after them. -/
theorem decode_bytesOfWord_append {w : Word} {i : Instr} (h : decodeWord w = .ok i) (rest : List Byte) :
    decode (bytesOfWord w ++ rest) = .ok (i, rest) := by
  simp [bytesOfWord, decode, Machine.wordOfBytes_extractLsb', h]

/-- Settles O8: the bytes of the encoding are its word again, and the word decodes to the instruction. -/
theorem bytesOfInstructionDecodeToIt : Obligations.BytesOfInstructionDecodeToIt :=
  fun _ rest hwf => ⟨rfl, decode_bytesOfWord_append (decodeWord_encodeWord hwf) rest⟩

end Sys2Proof

/-! ### Misaligned addresses (20_memory.md R34; log 31) -/

namespace Sys2Proof.Machine

/-- R34: a form that runs completes wherever it can load, and loads the bytes at its address. -/
theorem exec_of_canLoad {i : Instr} {s : State} (hruns : FormRuns i s) (hload : CanLoad s (effectiveAddress i s)) :
    ∃ t, exec i s = .next t ∧
      (updatedGpr i ≠ some (targetGpr i) → HoldsBytesAt s.mem (effectiveAddress i s) (t.gpr (targetGpr i))) := by
  refine ⟨_, (exec_next_iff ..).2 ⟨hruns, hload, rfl⟩, fun hkeep => ?_⟩
  rw [setPc_gpr, gpr_registerWrites, if_neg hkeep, if_pos rfl]
  exact holdsBytesAt_read8 s.mem _

/-- For each mnemonic, an instruction that reads at the address in `r1` where `r2` is 0. -/
def loadAtR1 : Mnemonic → Instr
  | .ld => .ld 3 0 1
  | .ldu => .ldu 3 0 1
  | .ldux => .ldux 3 1 2
  | .ldx => .ldx 3 1 2

/-- The reset state with a number in `r1`. -/
def resetWithR1 (n : Nat) : State := State.reset.setGpr 1 (BitVec.ofNat 64 n)

theorem loadAtR1_mnemonic (m : Mnemonic) : (loadAtR1 m).mnemonic = m := by cases m <;> rfl

theorem loadAtR1_wellFormed (m : Mnemonic) : (loadAtR1 m).wellFormed = true := by cases m <;> rfl

/-- None of the four is an invalid form. -/
theorem loadAtR1_formRuns (m : Mnemonic) (s : State) : FormRuns (loadAtR1 m) s := by
  cases m <;> simp [loadAtR1, FormRuns]

theorem ea32_ofNat (n : Nat) : ea32 (BitVec.ofNat 64 n) = BitVec.ofNat 32 n := by
  apply BitVec.eq_of_toNat_eq
  simp only [ea32, BitVec.extractLsb'_toNat, BitVec.toNat_ofNat, Nat.shiftRight_zero]
  omega

theorem resetWithR1_gpr_one (n : Nat) : (resetWithR1 n).gpr 1 = BitVec.ofNat 64 n := gpr_setGpr_self ..

theorem resetWithR1_gpr_two (n : Nat) : (resetWithR1 n).gpr 2 = 0#64 := gpr_setGpr_of_ne _ _ (by decide)

theorem effectiveAddress_loadAtR1 (m : Mnemonic) (n : Nat) :
    effectiveAddress (loadAtR1 m) (resetWithR1 n) = BitVec.ofNat 32 n := by
  have hbase : base0 (resetWithR1 n) 1 = BitVec.ofNat 64 n := resetWithR1_gpr_one n
  cases m <;>
    simp [loadAtR1, effectiveAddress, eaLd, eaLdu, eaLdux, eaLdx, dispAddend, hbase, resetWithR1_gpr_one,
      resetWithR1_gpr_two, ea32_ofNat]

/-- The reset platform admits every access that lies within the space (log 4). -/
theorem reset_admits {a : Addr} {n : Nat} (h : a.toNat + n ≤ 2 ^ 32) (kind : AccessKind) :
    State.reset.admits a n kind = true := by
  have hspace : a.toNat + n ≤ 0xFFFFFFFF + 1 := h
  cases kind <;> simpa [State.admits, State.reset, Platform.default, Window.admits] using hspace

theorem resetWithR1_pc_ne (n : Nat) : (resetWithR1 n).pc ≠ 0xFFFFFFFC#32 := by
  rw [resetWithR1, setGpr_pc]
  decide

theorem resetWithR1_canLoad (n : Nat) {a : Addr} (h : a.toNat ≤ 0xFFFFFFF8) : CanLoad (resetWithR1 n) a :=
  ⟨h, (setGpr_admits ..).trans (reset_admits (by omega) .data), resetWithR1_pc_ne n⟩

/-- Settles O24: no test of the meanings looks at the alignment, and `r1` can hold an address of each residue. -/
theorem everyAlignmentIsReadByAllFour : Obligations.EveryAlignmentIsReadByAllFour := by
  refine ⟨fun i s => exec_of_canLoad, fun m n hn => ⟨loadAtR1 m, resetWithR1 n, loadAtR1_mnemonic m,
    loadAtR1_wellFormed m, loadAtR1_formRuns m _, ?_⟩⟩
  have hea : (effectiveAddress (loadAtR1 m) (resetWithR1 n)).toNat = n := by
    rw [effectiveAddress_loadAtR1, BitVec.toNat_ofNat]
    omega
  exact ⟨by omega, resetWithR1_canLoad n (by omega)⟩

end Sys2Proof.Machine

/-! ### A word as the concatenation of its fields, and the opcode map (30_encoding.md R51, R52, R56, R57) -/

namespace Sys2Proof

/-- Settles O1, by the fields of the encoded word. -/
theorem decodeOfEncodeGivesInstructionBack : Obligations.DecodeOfEncodeGivesInstructionBack :=
  fun _ hwf => decodeWord_encodeWord hwf

/-- R51: the fields of the DS-form cover the word, each bit once. -/
theorem append_fields_dsForm (w : Word) :
    fieldOPCD w ++ fieldRT w ++ fieldRA w ++ fieldDS w ++ fieldXODS w = w := by
  simp (disch := rfl) only [fieldOPCD, fieldRT, fieldRA, fieldDS, fieldXODS,
    BitVec.extractLsb'_append_extractLsb'_eq_extractLsb', BitVec.extractLsb'_eq_self]

/-- R52: the fields of the X-form cover the word, each bit once. -/
theorem append_fields_xForm (w : Word) :
    fieldOPCD w ++ fieldRT w ++ fieldRA w ++ fieldRB w ++ fieldXOX w ++ fieldRc w = w := by
  simp (disch := rfl) only [fieldOPCD, fieldRT, fieldRA, fieldRB, fieldXOX, fieldRc,
    BitVec.extractLsb'_append_extractLsb'_eq_extractLsb', BitVec.extractLsb'_eq_self]

/-- Two concatenations of the same widths are equal exactly when their parts are. -/
theorem append_eq_append_iff {n m : Nat} {a b : BitVec n} {x y : BitVec m} :
    a ++ x = b ++ y ↔ a = b ∧ x = y := by
  refine ⟨fun h => ⟨?_, ?_⟩, fun ⟨hleft, hright⟩ => by rw [hleft, hright]⟩
  · simpa only [BitVec.extractLsb'_append_eq_left] using congrArg (BitVec.extractLsb' m n) h
  · simpa only [BitVec.extractLsb'_append_eq_right] using congrArg (BitVec.extractLsb' 0 m) h

theorem append_and_append_eq_iff {n m : Nat} {a mask b : BitVec n} {x mask' y : BitVec m} :
    (a ++ x) &&& (mask ++ mask') = b ++ y ↔ a &&& mask = b ∧ x &&& mask' = y := by
  rw [BitVec.and_append, append_eq_append_iff]

/-- A mask over the opcode fields of the DS-form tests each of them by itself, and no operand. -/
theorem and_dsMask_eq_iff (w : Word) (maskO o : BitVec 6) (maskX x : BitVec 2) :
    w &&& (maskO ++ 0#5 ++ 0#5 ++ 0#14 ++ maskX) = o ++ 0#5 ++ 0#5 ++ 0#14 ++ x ↔
      fieldOPCD w &&& maskO = o ∧ fieldXODS w &&& maskX = x := by
  have parts (opcd : BitVec 6) (rt ra : BitVec 5) (ds : BitVec 14) (xo : BitVec 2) :
      (opcd ++ rt ++ ra ++ ds ++ xo) &&& (maskO ++ 0#5 ++ 0#5 ++ 0#14 ++ maskX) = o ++ 0#5 ++ 0#5 ++ 0#14 ++ x ↔
        opcd &&& maskO = o ∧ xo &&& maskX = x := by
    simp only [append_and_append_eq_iff, BitVec.and_zero, and_true]
  simpa only [append_fields_dsForm] using
    parts (fieldOPCD w) (fieldRT w) (fieldRA w) (fieldDS w) (fieldXODS w)

/-- A mask over the opcode fields of the X-form tests each of them by itself, and no operand. -/
theorem and_xMask_eq_iff (w : Word) (maskO o : BitVec 6) (maskX x : BitVec 10) (maskC c : BitVec 1) :
    w &&& (maskO ++ 0#5 ++ 0#5 ++ 0#5 ++ maskX ++ maskC) = o ++ 0#5 ++ 0#5 ++ 0#5 ++ x ++ c ↔
      fieldOPCD w &&& maskO = o ∧ fieldXOX w &&& maskX = x ∧ fieldRc w &&& maskC = c := by
  have parts (opcd : BitVec 6) (rt ra rb : BitVec 5) (xo : BitVec 10) (rc : BitVec 1) :
      (opcd ++ rt ++ ra ++ rb ++ xo ++ rc) &&& (maskO ++ 0#5 ++ 0#5 ++ 0#5 ++ maskX ++ maskC) =
          o ++ 0#5 ++ 0#5 ++ 0#5 ++ x ++ c ↔
        opcd &&& maskO = o ∧ xo &&& maskX = x ∧ rc &&& maskC = c := by
    simp only [append_and_append_eq_iff, BitVec.and_zero, and_true, and_assoc]
  simpa only [append_fields_xForm] using
    parts (fieldOPCD w) (fieldRT w) (fieldRA w) (fieldRB w) (fieldXOX w) (fieldRc w)

/-- The opcode fields of a word are those of a mnemonic (R51, R52, R57). -/
def HasOpcodeOf (m : Mnemonic) (w : Word) : Prop :=
  match m with
  | .ld => fieldOPCD w = 58#6 ∧ fieldXODS w = 0#2
  | .ldu => fieldOPCD w = 58#6 ∧ fieldXODS w = 1#2
  | .ldux => fieldOPCD w = 31#6 ∧ fieldXOX w = 53#10 ∧ fieldRc w = 0#1
  | .ldx => fieldOPCD w = 31#6 ∧ fieldXOX w = 21#10 ∧ fieldRc w = 0#1

/-- The instruction of a mnemonic with the operands that a word's fields give (R53, R54). -/
def instrOfFields (m : Mnemonic) (w : Word) : Instr :=
  match m with
  | .ld => .ld (gprOfField (fieldRT w)) (dispOfField (fieldDS w)) (gprOfField (fieldRA w))
  | .ldu => .ldu (gprOfField (fieldRT w)) (dispOfField (fieldDS w)) (gprOfField (fieldRA w))
  | .ldux => .ldux (gprOfField (fieldRT w)) (gprOfField (fieldRA w)) (gprOfField (fieldRB w))
  | .ldx => .ldx (gprOfField (fieldRT w)) (gprOfField (fieldRA w)) (gprOfField (fieldRB w))

@[simp] theorem mnemonic_instrOfFields (m : Mnemonic) (w : Word) : (instrOfFields m w).mnemonic = m := by
  cases m <;> rfl

/-- R57: a word with the opcode fields of a mnemonic decodes to that mnemonic's instruction of its operand fields. -/
theorem decodeWord_of_hasOpcodeOf {m : Mnemonic} {w : Word} (h : HasOpcodeOf m w) :
    decodeWord w = .ok (instrOfFields m w) := by
  cases m with
  | ld | ldu =>
    obtain ⟨hopcd, hxo⟩ := h
    simp [decodeWord, instrOfFields, hopcd, hxo]
  | ldux | ldx =>
    obtain ⟨hopcd, hxo, hrc⟩ := h
    simp [decodeWord, instrOfFields, hopcd, hxo, hrc]

/-- R57: the decoder accepts a word for the opcode fields of one of the four mnemonics, and for nothing else. -/
theorem decodeWord_ok_iff (w : Word) (i : Instr) :
    decodeWord w = .ok i ↔ ∃ m, HasOpcodeOf m w ∧ instrOfFields m w = i := by
  refine ⟨fun h => ?_, fun ⟨m, hop, hi⟩ => hi ▸ decodeWord_of_hasOpcodeOf hop⟩
  obtain ⟨m, hop⟩ : ∃ m, HasOpcodeOf m w := by
    unfold decodeWord at h
    split at h
    · next hopcd =>
      split at h
      · next hxo => exact ⟨.ld, hopcd, hxo⟩
      · split at h
        · next hxo => exact ⟨.ldu, hopcd, hxo⟩
        · cases h
    · split at h
      · next hopcd =>
        split at h
        · next hxo =>
          split at h
          · next hrc => exact ⟨.ldx, hopcd, hxo, hrc⟩
          · cases h
        · split at h
          · next hxo =>
            split at h
            · next hrc => exact ⟨.ldux, hopcd, hxo, hrc⟩
            · cases h
          · cases h
      · cases h
  exact ⟨m, hop, by simpa [decodeWord_of_hasOpcodeOf hop] using h⟩

/-- R56: a word is in the row of a mnemonic exactly when it has the mnemonic's opcode fields. -/
theorem and_mask_eq_matchWord_iff (w : Word) (m : Mnemonic) :
    w &&& (opcodeRow m).mask = (opcodeRow m).matchWord ↔ HasOpcodeOf m w := by
  cases m with
  | ld =>
    exact (and_dsMask_eq_iff w (BitVec.allOnes 6) 58#6 (BitVec.allOnes 2) 0#2).trans
      (by simp only [BitVec.and_allOnes, HasOpcodeOf])
  | ldu =>
    exact (and_dsMask_eq_iff w (BitVec.allOnes 6) 58#6 (BitVec.allOnes 2) 1#2).trans
      (by simp only [BitVec.and_allOnes, HasOpcodeOf])
  | ldux =>
    exact (and_xMask_eq_iff w (BitVec.allOnes 6) 31#6 (BitVec.allOnes 10) 53#10 (BitVec.allOnes 1) 0#1).trans
      (by simp only [BitVec.and_allOnes, HasOpcodeOf])
  | ldx =>
    exact (and_xMask_eq_iff w (BitVec.allOnes 6) 31#6 (BitVec.allOnes 10) 21#10 (BitVec.allOnes 1) 0#1).trans
      (by simp only [BitVec.and_allOnes, HasOpcodeOf])

/-- No word has the opcode fields of two mnemonics. -/
theorem hasOpcodeOf_unique {m n : Mnemonic} {w : Word} (hm : HasOpcodeOf m w) (hn : HasOpcodeOf n w) : m = n := by
  have h : instrOfFields m w = instrOfFields n w :=
    Except.ok.inj ((decodeWord_of_hasOpcodeOf hm).symm.trans (decodeWord_of_hasOpcodeOf hn))
  simpa using congrArg Instr.mnemonic h

/-- Settles O3: the mask test of a row is the decoder's test of the opcode fields. -/
theorem wordIsOfRowIffMaskedBitsMatch : Obligations.WordIsOfRowIffMaskedBitsMatch := by
  refine ⟨fun w m => ?_, fun w m n hm hn => ?_, ⟨rfl, rfl⟩, ⟨rfl, rfl⟩, ⟨rfl, rfl⟩, ⟨rfl, rfl⟩⟩
  · rw [and_mask_eq_matchWord_iff]
    constructor
    · rintro ⟨i, hdec, rfl⟩
      obtain ⟨m, hop, rfl⟩ := (decodeWord_ok_iff w i).1 hdec
      rwa [mnemonic_instrOfFields]
    · exact fun hop => ⟨_, decodeWord_of_hasOpcodeOf hop, mnemonic_instrOfFields m w⟩
  · exact hasOpcodeOf_unique ((and_mask_eq_matchWord_iff w m).1 hm) ((and_mask_eq_matchWord_iff w n).1 hn)

/-! #### The displacement (R54) -/

/-- R54: `ds = 4 × signed(DS)`. -/
theorem dispOfField_eq (d : BitVec 14) : dispOfField d = 4 * d.toInt := BitVec.toInt_append_zero

theorem toInt_field14_bounds (d : BitVec 14) : -8192 ≤ d.toInt ∧ d.toInt ≤ 8191 := by
  have hmin : -8192 ≤ d.toInt := BitVec.le_toInt d
  have hmax : d.toInt < 8192 := BitVec.toInt_lt
  exact ⟨hmin, by omega⟩

/-- Every field gives a displacement that can be encoded. -/
theorem dispWellFormed_dispOfField (d : BitVec 14) : dispWellFormed (dispOfField d) = true := by
  obtain ⟨hmin, hmax⟩ := toInt_field14_bounds d
  rw [dispWellFormed_iff, dispOfField_eq]
  omega

/-- R31, R51: the low half of a word with its two low bits cleared is its DS field followed by two zeros. -/
theorem extractLsb'_and_clearLow (w : Word) :
    (w &&& 0xFFFFFFFC#32).extractLsb' 0 16 = (fieldDS w ++ 0#2 : BitVec 16) := by
  have hlow : w.extractLsb' 0 16 = fieldDS w ++ fieldXODS w :=
    (BitVec.extractLsb'_append_extractLsb'_eq_extractLsb' (start₁ := 0) (len₁ := 2) (len₂ := 14) rfl).symm
  have hmask : (0xFFFFFFFC#32).extractLsb' 0 16 = BitVec.allOnes 14 ++ 0#2 := by decide
  rw [BitVec.extractLsb'_and, hlow, hmask, BitVec.and_append, BitVec.and_allOnes, BitVec.and_zero]

/-- Settles O4: the addend is the field's number sign-extended, and the number is four times the signed field. -/
theorem displacementIsScaledSignedField : Obligations.DisplacementIsScaledSignedField := by
  refine ⟨fun w => ?_, fun d => ?_, by decide, by decide⟩
  · have haddend : Machine.dispAddend (dispOfField (fieldDS w)) = (fieldDS w ++ 0#2 : BitVec 16).signExtend 64 := rfl
    exact ⟨haddend, by rw [extractLsb'_and_clearLow, haddend]⟩
  · obtain ⟨hmin, hmax⟩ := toInt_field14_bounds d
    obtain ⟨hscaled, hleast, hgreatest⟩ := (dispWellFormed_iff _).1 (dispWellFormed_dispOfField d)
    exact ⟨dispOfField_eq d, hmin, hmax, hscaled, hleast, hgreatest⟩

/-! #### Every accepted word is an encoding -/

@[simp] theorem fieldOfGpr_gprOfField (n : BitVec 5) : fieldOfGpr (gprOfField n) = n := by
  simp [fieldOfGpr, gprOfField]

/-- R64: the field of a field's displacement is the field. -/
@[simp] theorem fieldOfDisp_dispOfField (d : BitVec 14) : fieldOfDisp (dispOfField d) = d := by
  rw [fieldOfDisp, dispOfField, BitVec.ofInt_toInt]
  exact BitVec.extractLsb'_append_eq_left

theorem wellFormed_instrOfFields (m : Mnemonic) (w : Word) : (instrOfFields m w).wellFormed = true := by
  cases m with
  | ld | ldu => exact dispWellFormed_dispOfField (fieldDS w)
  | ldux | ldx => rfl

/-- A word with the opcode fields of a mnemonic is the encoding of that mnemonic's instruction of its operand fields. -/
theorem encodeWord_instrOfFields {m : Mnemonic} {w : Word} (h : HasOpcodeOf m w) :
    encodeWord (instrOfFields m w) = w := by
  cases m with
  | ld | ldu =>
    obtain ⟨hopcd, hxo⟩ := h
    simpa [instrOfFields, encodeWord, encodeDS, hopcd, hxo] using append_fields_dsForm w
  | ldux | ldx =>
    obtain ⟨hopcd, hxo, hrc⟩ := h
    simpa [instrOfFields, encodeWord, encodeX, hopcd, hxo, hrc] using append_fields_xForm w

/-- Settles O2: an accepted word is the concatenation of its opcode and operand fields. -/
theorem encodeOfDecodeGivesWordBack : Obligations.EncodeOfDecodeGivesWordBack := by
  intro w i hdec
  obtain ⟨m, hop, rfl⟩ := (decodeWord_ok_iff w i).1 hdec
  exact ⟨wellFormed_instrOfFields m w, encodeWord_instrOfFields hop⟩

theorem decodeWord_of_encodeWord_eq {i : Instr} {w : Word} (hwf : i.wellFormed = true) (hw : encodeWord i = w) :
    decodeWord w = .ok i :=
  hw ▸ decodeWord_encodeWord hwf

/-- Settles O9: each word is the encoding of its instruction. -/
theorem writtenOutWordsDecode : Obligations.WrittenOutWordsDecode :=
  ⟨decodeWord_of_encodeWord_eq (by decide) (by decide), decodeWord_of_encodeWord_eq (by decide) (by decide),
    decodeWord_of_encodeWord_eq rfl (by decide), decodeWord_of_encodeWord_eq rfl (by decide)⟩

end Sys2Proof

/-! ### The assembler (30_encoding.md R63 to R66; log 25) -/

namespace Sys2Proof

/-- Cutting a number down to a narrower width is reducing it modulo the lesser power of 2. -/
theorem setWidth_ofInt {n m : Nat} (h : m ≤ n) (z : Int) : (BitVec.ofInt n z).setWidth m = BitVec.ofInt m z := by
  apply BitVec.eq_of_toInt_eq
  have hdvd : ((2 ^ m : Nat) : Int) ∣ ((2 ^ n : Nat) : Int) := Int.natCast_dvd_natCast.2 (Nat.pow_dvd_pow 2 h)
  rw [BitVec.toInt_setWidth, BitVec.toNat_ofInt, BitVec.toInt_ofInt,
    Int.toNat_of_nonneg (Int.emod_nonneg _ (by simp)), Int.bmod_def, Int.bmod_def, Int.emod_emod_of_dvd _ hdvd]

/-- R64: the DS field is `ds[15:2]`, in whichever width `ds` is written. -/
theorem extractLsb'_ofInt_eq_fieldOfDisp {n : Nat} (h : 16 ≤ n) (ds : Int) :
    (BitVec.ofInt n ds).extractLsb' 2 14 = fieldOfDisp ds := by
  rw [fieldOfDisp, ← setWidth_ofInt h ds, BitVec.extractLsb'_setWidth_of_le (by decide)]

/-- R64: as a number the DS field is `(ds / 4) mod 2^14`. -/
theorem toNat_fieldOfDisp (ds : Int) : ((fieldOfDisp ds).toNat : Int) = (ds / 4) % 2 ^ 14 := by
  simp only [fieldOfDisp, BitVec.extractLsb'_toNat, BitVec.toNat_ofInt, Nat.shiftRight_eq_div_pow]
  omega

/-- The assembler's answer for a displacement, given the word to answer where it can be encoded. -/
def checkDisp (ds : Int) (w : Word) : Except AsmReject Word :=
  if dispScaled ds = false then .error .notMultipleOf4
  else if dispWellFormed ds = false then .error .outOfRange
  else .ok w

theorem assemble_ld (rt ra : Gpr) (ds : Int) : assemble (.ld rt ds ra) = checkDisp ds (encodeDS rt ra ds 0#2) := rfl
theorem assemble_ldu (rt ra : Gpr) (ds : Int) : assemble (.ldu rt ds ra) = checkDisp ds (encodeDS rt ra ds 1#2) := rfl
theorem assemble_ldux (rt ra rb : Gpr) : assemble (.ldux rt ra rb) = .ok (encodeX rt ra rb 53#10) := rfl
theorem assemble_ldx (rt ra rb : Gpr) : assemble (.ldx rt ra rb) = .ok (encodeX rt ra rb 21#10) := rfl

section
variable {ds : Int} (w : Word)

theorem checkDisp_of_not_scaled (h : ds % 4 ≠ 0) : checkDisp ds w = .error .notMultipleOf4 := by
  simp [checkDisp, dispScaled, h]

theorem checkDisp_of_out_of_range (hscaled : ds % 4 = 0) (h : ds < -32768 ∨ 32764 < ds) :
    checkDisp ds w = .error .outOfRange := by
  have hbad : dispWellFormed ds = false := by
    rw [← Bool.not_eq_true, dispWellFormed_iff]
    omega
  simp [checkDisp, dispScaled, hscaled, hbad]

theorem checkDisp_of_wellFormed (h : dispWellFormed ds = true) : checkDisp ds w = .ok w := by
  obtain ⟨hscaled, -, -⟩ := (dispWellFormed_iff ds).1 h
  simp [checkDisp, dispScaled, hscaled, h]

end

/-- Settles O6: the check of the displacement, and the DS field of the encoding. -/
theorem assemblerChecksAndScalesDisplacement : Obligations.AssemblerChecksAndScalesDisplacement := by
  intro rt ra ds
  simp only [assemble_ld, assemble_ldu]
  refine ⟨fun h => ⟨checkDisp_of_not_scaled _ h, checkDisp_of_not_scaled _ h⟩,
    fun hscaled h => ⟨checkDisp_of_out_of_range _ hscaled h, checkDisp_of_out_of_range _ hscaled h⟩,
    fun hscaled hmin hmax => ?_⟩
  have hwf : dispWellFormed ds = true := (dispWellFormed_iff ds).2 ⟨hscaled, hmin, hmax⟩
  refine ⟨_, _, checkDisp_of_wellFormed _ hwf, checkDisp_of_wellFormed _ hwf, ?_⟩
  rw [fieldDS_encodeDS, fieldDS_encodeDS, extractLsb'_ofInt_eq_fieldOfDisp (by decide)]
  exact ⟨toNat_fieldOfDisp ds, toNat_fieldOfDisp ds, rfl, rfl⟩

/-! #### A word as its match word with the operand fields shifted into place (R65) -/

/-- R65: a displacement masked to its bits 15 to 2 lies in the place of the DS field. -/
theorem ofInt_and_dispMask (ds : Int) :
    BitVec.ofInt 32 ds &&& 0xFFFC#32 = 0#6 ++ 0#5 ++ 0#5 ++ fieldOfDisp ds ++ 0#2 := by
  have parts (opcd : BitVec 6) (rt ra : BitVec 5) (d : BitVec 14) (xo : BitVec 2) :
      (opcd ++ rt ++ ra ++ d ++ xo) &&& (0#6 ++ 0#5 ++ 0#5 ++ BitVec.allOnes 14 ++ 0#2) =
        0#6 ++ 0#5 ++ 0#5 ++ d ++ 0#2 := by
    simp only [BitVec.and_append, BitVec.and_zero, BitVec.and_allOnes]
  have hds : fieldDS (BitVec.ofInt 32 ds) = fieldOfDisp ds := extractLsb'_ofInt_eq_fieldOfDisp (by decide) ds
  rw [← hds]
  conv_lhs => rw [← append_fields_dsForm (BitVec.ofInt 32 ds)]
  exact parts ..

/-- R65: a DS-form word is its opcode fields with the operand fields shifted into place. -/
theorem encodeDS_eq_or (rt ra : Gpr) (ds : Int) (xo : BitVec 2) :
    encodeDS rt ra ds xo = (58#6 ++ 0#5 ++ 0#5 ++ 0#14 ++ xo) ||| (BitVec.ofNat 32 rt <<< 21) |||
      (BitVec.ofNat 32 ra <<< 16) ||| (BitVec.ofInt 32 ds &&& 0xFFFC#32) := by
  have hrt : ∀ r : Gpr, BitVec.ofNat 32 r <<< 21 = 0#6 ++ fieldOfGpr r ++ 0#5 ++ 0#14 ++ 0#2 := by decide
  have hra : ∀ r : Gpr, BitVec.ofNat 32 r <<< 16 = 0#6 ++ 0#5 ++ fieldOfGpr r ++ 0#14 ++ 0#2 := by decide
  have parts (a b : BitVec 5) (d : BitVec 14) :
      58#6 ++ a ++ b ++ d ++ xo = (58#6 ++ 0#5 ++ 0#5 ++ 0#14 ++ xo) ||| (0#6 ++ a ++ 0#5 ++ 0#14 ++ 0#2) |||
        (0#6 ++ 0#5 ++ b ++ 0#14 ++ 0#2) ||| (0#6 ++ 0#5 ++ 0#5 ++ d ++ 0#2) := by
    simp only [BitVec.or_append, BitVec.or_zero, BitVec.zero_or]
  rw [hrt, hra, ofInt_and_dispMask]
  exact parts ..

/-- R65: an X-form word is its opcode fields with the operand fields shifted into place. -/
theorem encodeX_eq_or (rt ra rb : Gpr) (xo : BitVec 10) :
    encodeX rt ra rb xo = (31#6 ++ 0#5 ++ 0#5 ++ 0#5 ++ xo ++ 0#1) ||| (BitVec.ofNat 32 rt <<< 21) |||
      (BitVec.ofNat 32 ra <<< 16) ||| (BitVec.ofNat 32 rb <<< 11) := by
  have hrt : ∀ r : Gpr, BitVec.ofNat 32 r <<< 21 = 0#6 ++ fieldOfGpr r ++ 0#5 ++ 0#5 ++ 0#10 ++ 0#1 := by decide
  have hra : ∀ r : Gpr, BitVec.ofNat 32 r <<< 16 = 0#6 ++ 0#5 ++ fieldOfGpr r ++ 0#5 ++ 0#10 ++ 0#1 := by decide
  have hrb : ∀ r : Gpr, BitVec.ofNat 32 r <<< 11 = 0#6 ++ 0#5 ++ 0#5 ++ fieldOfGpr r ++ 0#10 ++ 0#1 := by decide
  have parts (a b c : BitVec 5) :
      31#6 ++ a ++ b ++ c ++ xo ++ 0#1 = (31#6 ++ 0#5 ++ 0#5 ++ 0#5 ++ xo ++ 0#1) |||
        (0#6 ++ a ++ 0#5 ++ 0#5 ++ 0#10 ++ 0#1) ||| (0#6 ++ 0#5 ++ b ++ 0#5 ++ 0#10 ++ 0#1) |||
        (0#6 ++ 0#5 ++ 0#5 ++ c ++ 0#10 ++ 0#1) := by
    simp only [BitVec.or_append, BitVec.or_zero, BitVec.zero_or]
  rw [hrt, hra, hrb]
  exact parts ..

/-- Settles O5: the match word of a row is its opcode fields with every operand field 0. -/
theorem assembledWordIsMatchWithShiftedFields : Obligations.AssembledWordIsMatchWithShiftedFields := by
  refine ⟨fun rt ra ds hwf => ?_, fun rt ra rb => ?_, by decide⟩
  · rw [assemble_ld, assemble_ldu, checkDisp_of_wellFormed _ hwf, checkDisp_of_wellFormed _ hwf, encodeDS_eq_or,
      encodeDS_eq_or]
    exact ⟨rfl, rfl⟩
  · rw [assemble_ldux, assemble_ldx, encodeX_eq_or, encodeX_eq_or]
    exact ⟨rfl, rfl⟩

/-! #### Source forms (R63) -/

theorem parseBase0_asmBase0 (ra : Gpr) : parseBase0 (asmBase0 ra) = some ra := by
  by_cases h : ra = 0 <;> simp [asmBase0, parseBase0, h]

/-- An RA0 operand is read from its source form alone (log 25). -/
theorem asmBase0_of_parseBase0 {t : AsmToken} {ra : Gpr} (h : parseBase0 t = some ra) : asmBase0 ra = t := by
  cases t with
  | num z =>
    obtain ⟨rfl, rfl⟩ : z = 0 ∧ 0 = ra := by simpa [parseBase0] using h
    rfl
  | reg r =>
    obtain ⟨hr, rfl⟩ : r ≠ 0 ∧ r = ra := by simpa [parseBase0] using h
    exact if_neg hr
  | mnemonic m => cases h
  | comma => cases h
  | lparen => cases h
  | rparen => cases h

theorem parseAsm_asmTokens (i : Instr) : parseAsm (asmTokens i) = some i := by
  cases i with
  | ld rt ds ra => simp [asmTokens, parseAsm, parseBase0_asmBase0]
  | ldu rt ds ra => rfl
  | ldux rt ra rb => rfl
  | ldx rt ra rb => simp [asmTokens, parseAsm, parseBase0_asmBase0]

/-- A token line that reads as an instruction is the instruction's source form. -/
theorem asmTokens_of_parseAsm {ts : List AsmToken} {i : Instr} (h : parseAsm ts = some i) : asmTokens i = ts := by
  unfold parseAsm at h
  split at h
  case h_1 rt ds base =>
    obtain ⟨ra, hbase, rfl⟩ := Option.map_eq_some_iff.1 h
    simp [asmTokens, asmBase0_of_parseBase0 hbase]
  case h_2 => obtain rfl := Option.some.inj h; rfl
  case h_3 => obtain rfl := Option.some.inj h; rfl
  case h_4 rt base rb =>
    obtain ⟨ra, hbase, rfl⟩ := Option.map_eq_some_iff.1 h
    simp [asmTokens, asmBase0_of_parseBase0 hbase]
  case h_5 => cases h

/-- Settles O7, by the four source forms. -/
theorem sourceFormReadsBack : Obligations.SourceFormReadsBack :=
  ⟨parseAsm_asmTokens, fun _ _ => asmTokens_of_parseAsm⟩

end Sys2Proof

/-! ### Invalid forms, and the base operand RA0 (30_encoding.md R55, R61) -/

namespace Sys2Proof.Machine

/-- R61: under policy `refuse` an update form with RA = 0 or RA = RT does not run; every other form does. -/
theorem not_formRuns_iff (i : Instr) (s : State) :
    ¬ FormRuns i s ↔ s.platform.policy = .refuse ∧
      ∃ rt ra : Gpr, (ra = 0 ∨ ra = rt) ∧ ((∃ ds, i = .ldu rt ds ra) ∨ (∃ rb, i = .ldux rt ra rb)) := by
  have update (rt ra : Gpr) : ¬ (s.platform.policy = .snapshot ∨ (ra ≠ 0 ∧ ra ≠ rt)) ↔
      s.platform.policy = .refuse ∧ (ra = 0 ∨ ra = rt) := by
    rw [← refusesForm_eq_false_iff, ← refusesForm_iff, Bool.not_eq_false]
  cases i with
  | ld rt ds ra => simp [FormRuns]
  | ldu rt ds ra =>
    refine (update rt ra).trans (and_congr_right' ⟨fun h => ⟨rt, ra, h, .inl ⟨ds, rfl⟩⟩, ?_⟩)
    rintro ⟨_, _, h, ⟨_, heq⟩ | ⟨_, heq⟩⟩
    · cases heq
      exact h
    · cases heq
  | ldux rt ra rb =>
    refine (update rt ra).trans (and_congr_right' ⟨fun h => ⟨rt, ra, h, .inr ⟨rb, rfl⟩⟩, ?_⟩)
    rintro ⟨_, _, h, ⟨_, heq⟩ | ⟨_, heq⟩⟩
    · cases heq
    · cases heq
      exact h
  | ldx rt ra rb => simp [FormRuns]

theorem load8_ne_invalidForm (s : State) (ea : Addr) : load8 s ea ≠ .error .invalidForm := by
  rcases load8_cases s ea with ⟨-, e⟩ | ⟨-, -, e⟩ | ⟨-, -, e⟩ <;> simp [e]

/-- `InvalidForm` is the refusal of a form that does not run, and of nothing else. -/
theorem exec_invalidForm_iff (i : Instr) (s : State) : exec i s = .refused .invalidForm ↔ ¬ FormRuns i s := by
  refine ⟨fun h => ?_, exec_of_not_formRuns⟩
  rcases (exec_refused_iff ..).1 h with ⟨hform, -⟩ | ⟨-, hload | ⟨-, hpc⟩⟩
  · exact hform
  · exact (load8_ne_invalidForm _ _ hload).elim
  · cases eq_pcOverflow_of_nextPc_error hpc

/-- Settles O26: the test of the form is the only one that answers `InvalidForm`. -/
theorem invalidFormsAreExactlyWhatInvalidFormRefuses : Obligations.InvalidFormsAreExactlyWhatInvalidFormRefuses :=
  fun s i => (exec_invalidForm_iff i s).trans (not_formRuns_iff i s)

/-- Writes to different registers commute. -/
theorem setGpr_comm (s : State) {i j : Gpr} (h : i ≠ j) (v u : Doubleword) :
    (s.setGpr i v).setGpr j u = (s.setGpr j u).setGpr i v := by
  simp only [State.setGpr, Vector.set_comm v u (Fin.val_ne_of_ne h)]

/-- The register writes commute with a write to a register that they do not touch. -/
theorem registerWrites_setGpr {i : Instr} {r : Gpr} (h : r ∉ writtenGprs i) (ea : Addr) (v u : Doubleword)
    (s : State) : registerWrites i ea v (s.setGpr r u) = (registerWrites i ea v s).setGpr r u := by
  obtain ⟨hbase, htarget⟩ := not_or.1 fun h' => h ((mem_writtenGprs_iff i r).2 h')
  cases hra : updatedGpr i with
  | none =>
    rw [registerWrites_of_updatedGpr_none hra, registerWrites_of_updatedGpr_none hra, setGpr_comm s (Ne.symm htarget)]
  | some ra =>
    have hne : ra ≠ r := fun heq => hbase (heq ▸ hra)
    rw [registerWrites_of_updatedGpr_some hra, registerWrites_of_updatedGpr_some hra,
      setGpr_comm s (Ne.symm htarget), setGpr_comm _ (Ne.symm hne)]

/-- An instruction cannot tell apart two states that differ in a register it does not read. -/
theorem readsAgree_setGpr {i : Instr} {r : Gpr} (h : r ∉ readGprs i) (s : State) (v : Doubleword) :
    ReadsAgree i s (s.setGpr r v) :=
  ⟨rfl, rfl, rfl, fun _ hr => gpr_setGpr_of_ne s v fun heq => h (heq ▸ hr)⟩

/-- A register that an instruction neither reads nor writes goes through it unchanged and without effect. -/
theorem exec_setGpr_of_next {i : Instr} {r : Gpr} (hread : r ∉ readGprs i) (hwritten : r ∉ writtenGprs i)
    {s t : State} (v : Doubleword) (h : exec i s = .next t) : exec i (s.setGpr r v) = .next (t.setGpr r v) := by
  obtain ⟨hruns, hload, rfl⟩ := (exec_next_iff ..).1 h
  have hagree := readsAgree_setGpr hread s v
  have hea : effectiveAddress i (s.setGpr r v) = effectiveAddress i s := effectiveAddress_congr hagree.gpr
  refine (exec_next_iff ..).2 ⟨(formRuns_congr hagree.platform).2 hruns, ?_, ?_⟩
  · rwa [hea, canLoad_congr hagree.pc hagree.platform]
  · rw [hea, registerWrites_setGpr hwritten]
    rfl

/-- Settles O30: with RA field 0 neither form reads register 0. -/
theorem zeroBaseFormsDoNotReadRegisterZero : Obligations.ZeroBaseFormsDoNotReadRegisterZero := by
  intro s rt rb ds v i hrt hrb hi
  have hread : 0 ∉ readGprs i := by
    rcases hi with rfl | rfl
    · simp [readGprs]
    · simpa [readGprs] using hrb.symm
  have hwritten : 0 ∉ writtenGprs i := by
    rcases hi with rfl | rfl <;> simpa [writtenGprs, targetGpr, updatedGpr] using hrt.symm
  exact ⟨fun t => exec_setGpr_of_next hread hwritten v,
    fun r => (exec_refused_congr (readsAgree_setGpr hread s v) r).2⟩

end Sys2Proof.Machine

/-! ### Words outside the four rows (30_encoding.md R59, R60, R62; log 20) -/

namespace Sys2Proof

/-- R59: primary opcode 58 with XO 2 or 3, that is, with the upper bit of XO set. -/
theorem decodeWord_reservedDS {w : Word} (h : w &&& 0xFC000002#32 = 0xE8000002#32) :
    decodeWord w = .error .reservedEncoding := by
  obtain ⟨hopcd, hxo⟩ := (and_dsMask_eq_iff w (BitVec.allOnes 6) 58#6 2#2 2#2).1 h
  rw [BitVec.and_allOnes] at hopcd
  have hne : ∀ x : BitVec 2, x &&& 2#2 = 2#2 → x ≠ 0#2 ∧ x ≠ 1#2 := by decide
  obtain ⟨hzero, hone⟩ := hne _ hxo
  simp [decodeWord, hopcd, hzero, hone]

/-- R60: an `ldx` or `ldux` pattern with Rc = 1. -/
theorem decodeWord_reservedX {w : Word} {xo : BitVec 10} (hxo : xo = 21#10 ∨ xo = 53#10)
    (h : w &&& 0xFC0007FF#32 = 31#6 ++ 0#5 ++ 0#5 ++ 0#5 ++ xo ++ 1#1) :
    decodeWord w = .error .reservedEncoding := by
  obtain ⟨hopcd, hfield, hrc⟩ :=
    (and_xMask_eq_iff w (BitVec.allOnes 6) 31#6 (BitVec.allOnes 10) xo (BitVec.allOnes 1) 1#1).1 h
  rw [BitVec.and_allOnes] at hopcd hfield hrc
  rcases hxo with rfl | rfl <;> simp [decodeWord, hopcd, hfield, hrc]

/-- The test of the primary opcode by a mask. -/
theorem and_opcdMask_eq_iff (w : Word) (o : BitVec 6) :
    w &&& 0xFC000000#32 = o ++ 0#5 ++ 0#5 ++ 0#14 ++ 0#2 ↔ fieldOPCD w = o :=
  (and_dsMask_eq_iff w (BitVec.allOnes 6) o 0#2 0#2).trans
    (by simp only [BitVec.and_allOnes, BitVec.and_zero, and_true])

/-- The test of the X-form's XO by a mask. -/
theorem and_xoMask_eq_iff (w : Word) (x : BitVec 10) :
    w &&& 0x7FE#32 = 0#6 ++ 0#5 ++ 0#5 ++ 0#5 ++ x ++ 0#1 ↔ fieldXOX w = x :=
  (and_xMask_eq_iff w 0#6 0#6 (BitVec.allOnes 10) x 0#1 0#1).trans
    (by simp only [BitVec.and_allOnes, BitVec.and_zero, and_true, true_and])

/-- R62: a word of another primary opcode than 58 and 31, or of 31 with another XO than 21 and 53. -/
theorem decodeWord_notInScope {w : Word} (hDS : fieldOPCD w ≠ 58#6)
    (hX : ¬ (fieldOPCD w = 31#6 ∧ (fieldXOX w = 21#10 ∨ fieldXOX w = 53#10))) :
    decodeWord w = .error .notInScope := by
  by_cases hopcd : fieldOPCD w = 31#6
  · obtain ⟨hldx, hldux⟩ := not_or.1 fun hxo => hX ⟨hopcd, hxo⟩
    simp [decodeWord, hopcd, hldx, hldux]
  · simp [decodeWord, hDS, hopcd]

namespace Machine

/-- R70: where a word can be fetched that the decoder rejects, the step is refused by the decoder's name for it. -/
theorem step_of_decode_error {s : State} {r : DecodeReject} (hfetch : CanFetch s)
    (hdec : decodeWord (fetchWord s) = .error r) : step s = .refused (refusalOfReject r) := by
  obtain ⟨hpc, hadm⟩ := hfetch
  simp [step, fetch, hpc, hadm, hdec]

/-- Settles O37: each mask test is a test of the opcode fields that the decoder looks at. -/
theorem wordsOutsideTheFourRowsAreRefusedByName : Obligations.WordsOutsideTheFourRowsAreRefusedByName := by
  intro s hfetch
  refine ⟨fun h => step_of_decode_error hfetch (decodeWord_reservedDS h),
    fun h => step_of_decode_error hfetch (decodeWord_reservedX (.inl rfl) h),
    fun h => step_of_decode_error hfetch (decodeWord_reservedX (.inr rfl) h), fun hDS hX => ?_⟩
  have hDS : fieldOPCD (fetchWord s) ≠ 58#6 := fun hopcd => hDS ((and_opcdMask_eq_iff _ 58#6).2 hopcd)
  refine step_of_decode_error hfetch (decodeWord_notInScope hDS fun ⟨hopcd, hxo⟩ => hX ⟨?_, ?_⟩)
  · exact (and_opcdMask_eq_iff _ 31#6).2 hopcd
  · exact hxo.imp (and_xoMask_eq_iff _ 21#10).2 (and_xoMask_eq_iff _ 53#10).2

end Machine

end Sys2Proof

/-! ### The effective address (40_load_doubleword.md R70 to R76) -/

namespace Sys2Proof.Machine

theorem toNat_ea32 (v : Doubleword) : (ea32 v).toNat = v.toNat % 2 ^ 32 := by
  simp [ea32]

/-- R76: the low half of a sum is the sum of the low halves. -/
theorem ea32_add (a c : Doubleword) : ea32 (a + c) = ea32 a + ea32 c := by
  apply BitVec.eq_of_toNat_eq
  simp only [toNat_ea32, BitVec.toNat_add]
  omega

/-- R54: the low half of a displacement's addend is the displacement modulo 2^32. -/
theorem toNat_ea32_dispAddend (ds : Int) : ((ea32 (dispAddend ds)).toNat : Int) = ds % 2 ^ 32 := by
  rw [toNat_ea32, dispAddend, BitVec.toNat_ofInt]
  omega

/-- R76, for the two indexed forms. -/
theorem toNat_ea32_add (a c : Doubleword) :
    (ea32 (a + c)).toNat = (a.toNat % 2 ^ 32 + c.toNat % 2 ^ 32) % 2 ^ 32 := by
  rw [ea32_add, BitVec.toNat_add, toNat_ea32, toNat_ea32]

/-- R76, for the two displacement forms. -/
theorem toNat_ea32_add_dispAddend (a : Doubleword) (ds : Int) :
    ((ea32 (a + dispAddend ds)).toNat : Int) = (a.toNat % 2 ^ 32 + ds % 2 ^ 32) % 2 ^ 32 := by
  have hdisp : ((ea32 (dispAddend ds)).toNat : Int) = ds % 2 ^ 32 := toNat_ea32_dispAddend ds
  rw [ea32_add, BitVec.toNat_add, toNat_ea32]
  omega

/-- Settles O29, since taking the low half is additive. -/
theorem effectiveAddressIsSumOfLowHalves : Obligations.EffectiveAddressIsSumOfLowHalves := fun _ _ _ _ _ =>
  ⟨toNat_ea32_add_dispAddend .., toNat_ea32_add_dispAddend .., toNat_ea32_add .., toNat_ea32_add ..⟩

theorem toNat_base0 (s : State) (ra : Gpr) :
    ((base0 s ra).toNat : Int) = if ra = 0 then 0 else ((s.gpr ra).toNat : Int) := by
  by_cases h : ra = 0
  · simp [h]
  · rw [base0_of_ne_zero s h, if_neg h]

/-- R71 to R74: the effective address as a number, from the contents of the registers. -/
theorem toNat_effectiveAddress (i : Instr) (s : State) :
    ((effectiveAddress i s).toNat : Int) = addressFrom s.gpr i := by
  cases i with
  | ld rt ds ra =>
    rw [effectiveAddress, eaLd, toNat_ea32_add_dispAddend, addressFrom, ← toNat_base0]
    omega
  | ldu rt ds ra =>
    rw [effectiveAddress, eaLdu, toNat_ea32_add_dispAddend, addressFrom]
    omega
  | ldux rt ra rb =>
    rw [effectiveAddress, eaLdux, toNat_ea32_add, addressFrom]
    omega
  | ldx rt ra rb =>
    rw [effectiveAddress, eaLdx, toNat_ea32_add, addressFrom, ← toNat_base0]
    omega

/-- An address with the number that R71 to R74 give is the effective address. -/
theorem effectiveAddress_eq_of_toNat {i : Instr} {s : State} {ea : Addr}
    (h : (ea.toNat : Int) = addressFrom s.gpr i) : effectiveAddress i s = ea := by
  rw [← toNat_effectiveAddress] at h
  exact BitVec.eq_of_toNat_eq (by omega)

end Sys2Proof.Machine

/-! ### What an instruction that completes has done (40_load_doubleword.md R71 to R75) -/

namespace Sys2Proof.Machine

/-- R71 to R75: the registers after an instruction that completes. -/
theorem gpr_of_exec_next {i : Instr} {s t : State} (h : exec i s = .next t) (r : Gpr) :
    t.gpr r = gprAfter i s r := by
  obtain ⟨-, -, rfl⟩ := (exec_next_iff ..).1 h
  rw [setPc_gpr, gpr_registerWrites, gprAfter]

theorem gprAfter_of_updatedGpr {i : Instr} {ra : Gpr} (h : updatedGpr i = some ra) (s : State) :
    gprAfter i s ra = (effectiveAddress i s).setWidth 64 := if_pos h

/-- RT holds the doubleword read, unless the update overwrites it. -/
theorem gprAfter_targetGpr {i : Instr} (h : updatedGpr i ≠ some (targetGpr i)) (s : State) :
    gprAfter i s (targetGpr i) = s.mem.read8 (effectiveAddress i s) := by
  rw [gprAfter, if_neg h, if_pos rfl]

/-- The state `t` is what `i` with effective address `ea` leaves of `s`: RT holds the eight bytes at `ea`, an updated RA
the address, the pc is 4 further on, and nothing else has changed. -/
structure LoadedFrom (i : Instr) (ea : Addr) (s t : State) : Prop where
  target : updatedGpr i ≠ some (targetGpr i) → HoldsBytesAt s.mem ea (t.gpr (targetGpr i))
  base : ∀ ra, updatedGpr i = some ra → (t.gpr ra).toNat = ea.toNat
  pc : t.pc = s.pc + 4
  frame : SameExcept (writtenGprs i) s t

theorem loadedFrom_of_exec_next {i : Instr} {s t : State} (h : exec i s = .next t) :
    LoadedFrom i (effectiveAddress i s) s t where
  target hkeep := by
    rw [gpr_of_exec_next h, gprAfter_targetGpr hkeep]
    exact holdsBytesAt_read8 s.mem _
  base ra hra := by
    rw [gpr_of_exec_next h, gprAfter_of_updatedGpr hra]
    exact BitVec.toNat_setWidth_of_le (by decide)
  pc := (exec_next_frame h).2
  frame := (exec_next_frame h).1

/-- A form that runs completes wherever it can load from the address that R71 to R74 give. -/
theorem exec_loadedFrom {i : Instr} {s : State} {ea : Addr} (hruns : FormRuns i s)
    (hea : (ea.toNat : Int) = addressFrom s.gpr i) (hload : CanLoad s ea) :
    ∃ t, exec i s = .next t ∧ LoadedFrom i ea s t := by
  obtain rfl := effectiveAddress_eq_of_toNat hea
  obtain ⟨t, ht, -⟩ := exec_of_canLoad hruns hload
  exact ⟨t, ht, loadedFrom_of_exec_next ht⟩

/-- Settles O18: `ld` has no update that could overwrite RT. -/
theorem ldLoadsDoublewordAtBasePlusDisplacement : Obligations.LdLoadsDoublewordAtBasePlusDisplacement := by
  intro s rt ra ds ea hea hload
  obtain ⟨t, ht, hloaded⟩ := exec_loadedFrom (i := .ld rt ds ra) trivial hea hload
  exact ⟨t, ht, hloaded.target (by simp [updatedGpr]), hloaded.pc, hloaded.frame⟩

/-- Settles O21, as for `ld`. -/
theorem ldxLoadsDoublewordAtBasePlusIndex : Obligations.LdxLoadsDoublewordAtBasePlusIndex := by
  intro s rt ra rb ea hea hload
  have hea : (ea.toNat : Int) = addressFrom s.gpr (.ldx rt ra rb) := by
    rw [hea, addressFrom]
    push_cast
    rfl
  obtain ⟨t, ht, hloaded⟩ := exec_loadedFrom (i := .ldx rt ra rb) trivial hea hload
  exact ⟨t, ht, hloaded.target (by simp [updatedGpr]), hloaded.pc, hloaded.frame⟩

/-- Settles O19: RA is written last and is not RT, so that both keep what they are given. -/
theorem lduLoadsDoublewordAndUpdatesBase : Obligations.LduLoadsDoublewordAndUpdatesBase := by
  intro s rt ra ds ea hzero hne hea hload
  obtain ⟨t, ht, hloaded⟩ := exec_loadedFrom (i := .ldu rt ds ra) (.inr ⟨hzero, hne⟩) hea hload
  exact ⟨t, ht, hloaded.target (by simpa [updatedGpr, targetGpr] using hne), hloaded.base ra rfl, hloaded.pc,
    hloaded.frame⟩

/-- Settles O20, as for `ldu`. -/
theorem lduxLoadsDoublewordAndUpdatesBase : Obligations.LduxLoadsDoublewordAndUpdatesBase := by
  intro s rt ra rb ea hzero hne hea hload
  have hea : (ea.toNat : Int) = addressFrom s.gpr (.ldux rt ra rb) := by
    rw [hea, addressFrom]
    push_cast
    rfl
  obtain ⟨t, ht, hloaded⟩ := exec_loadedFrom (i := .ldux rt ra rb) (.inr ⟨hzero, hne⟩) hea hload
  exact ⟨t, ht, hloaded.target (by simpa [updatedGpr, targetGpr] using hne), hloaded.base ra rfl, hloaded.pc,
    hloaded.frame⟩

/-- The instruction is an update form with these registers and an addend of this number modulo 2^64. -/
def IsUpdateForm (s : State) (i : Instr) (rt ra : Gpr) (addend : Nat) : Prop :=
  (∃ ds : Int, i = .ldu rt ds ra ∧ (addend : Int) = ds % 2 ^ 64) ∨
    (∃ rb : Gpr, i = .ldux rt ra rb ∧ addend = (s.gpr rb).toNat)

section
variable {s : State} {i : Instr} {rt ra : Gpr} {addend : Nat}

theorem IsUpdateForm.targetGpr_eq (h : IsUpdateForm s i rt ra addend) : targetGpr i = rt := by
  rcases h with ⟨ds, rfl, -⟩ | ⟨rb, rfl, -⟩ <;> rfl

theorem IsUpdateForm.updatedGpr_eq (h : IsUpdateForm s i rt ra addend) : updatedGpr i = some ra := by
  rcases h with ⟨ds, rfl, -⟩ | ⟨rb, rfl, -⟩ <;> rfl

theorem IsUpdateForm.writtenGprs_eq (h : IsUpdateForm s i rt ra addend) : writtenGprs i = [rt, ra] := by
  rcases h with ⟨ds, rfl, -⟩ | ⟨rb, rfl, -⟩ <;> rfl

/-- R61: under policy `snapshot` every update form runs. -/
theorem IsUpdateForm.formRuns (h : IsUpdateForm s i rt ra addend) (hpolicy : s.platform.policy = .snapshot) :
    FormRuns i s := by
  rcases h with ⟨ds, rfl, -⟩ | ⟨rb, rfl, -⟩ <;> exact .inl hpolicy

/-- R75: the base is the register RA, also for field value 0. -/
theorem IsUpdateForm.addressFrom_eq (h : IsUpdateForm s i rt ra addend) :
    addressFrom s.gpr i = (((s.gpr ra).toNat + addend) % 2 ^ 32 : Nat) := by
  rcases h with ⟨ds, rfl, haddend⟩ | ⟨rb, rfl, haddend⟩
  · rw [addressFrom]
    omega
  · rw [addressFrom, haddend]
    omega

end

/-- Settles O22: under `snapshot` the form is not tested, so that the invalid forms run as the valid ones do. -/
theorem snapshotPolicyRunsInvalidForms : Obligations.SnapshotPolicyRunsInvalidForms := by
  intro s i rt ra addend ea hpolicy hform _ hea
  have hform : IsUpdateForm s i rt ra addend := hform
  have hruns : FormRuns i s := hform.formRuns hpolicy
  have htoNat : (BitVec.ofNat 32 ea).toNat = ea := by
    rw [BitVec.toNat_ofNat]
    omega
  have hnum : ((BitVec.ofNat 32 ea).toNat : Int) = addressFrom s.gpr i := by
    rw [hform.addressFrom_eq, htoNat, hea]
  have heff : effectiveAddress i s = BitVec.ofNat 32 ea := effectiveAddress_eq_of_toNat hnum
  refine ⟨fun htop => ?_, fun htop hadm => ?_, fun hload => ?_⟩
  · rwa [exec_topOfSpace_iff hruns, heff, htoNat]
  · refine (exec_refused_iff ..).2 (.inr ⟨hruns, .inl ?_⟩)
    rw [heff]
    exact load8_of_not_admits (by rwa [htoNat]) hadm
  · obtain ⟨t, ht, hloaded⟩ := exec_loadedFrom hruns hnum hload
    have hframe : SameExcept [rt, ra] s t := hform.writtenGprs_eq ▸ hloaded.frame
    refine ⟨t, ht, (hloaded.base ra hform.updatedGpr_eq).trans htoNat, fun hne => ?_, hloaded.pc, hframe⟩
    rw [← hform.targetGpr_eq]
    exact hloaded.target (by simpa [hform.targetGpr_eq, hform.updatedGpr_eq] using hne)

end Sys2Proof.Machine

/-! ### States in which an instruction loads alike (40_load_doubleword.md R76, R78) -/

namespace Sys2Proof.Machine

/-- The two states give the instruction the same load: the same address, read from the same memory under the same
platform, at the same pc. -/
structure LoadsAgree (i : Instr) (s s' : State) : Prop where
  pc : s'.pc = s.pc
  mem : s'.mem = s.mem
  platform : s'.platform = s.platform
  address : effectiveAddress i s' = effectiveAddress i s

theorem ReadsAgree.loadsAgree {i : Instr} {s s' : State} (h : ReadsAgree i s s') : LoadsAgree i s s' :=
  ⟨h.pc, h.mem, h.platform, effectiveAddress_congr h.gpr⟩

section
variable {i : Instr} {s s' : State}

/-- Where the loads agree, an instruction is refused in both states for the same reason or in neither. -/
theorem LoadsAgree.refused_iff (h : LoadsAgree i s s') (r : Refusal) :
    exec i s' = .refused r ↔ exec i s = .refused r := by
  rw [exec_refused_iff, exec_refused_iff, formRuns_congr h.platform, h.address,
    load8_congr h.mem h.platform, nextPc_congr h.pc]

/-- Where the loads agree, an instruction that completes in one state completes in the other, which then has the same
address and doubleword written to its registers. -/
theorem LoadsAgree.next (h : LoadsAgree i s s') {t : State} (ht : exec i s = .next t) :
    exec i s' = .next
      ((registerWrites i (effectiveAddress i s) (s.mem.read8 (effectiveAddress i s)) s').setPc (s.pc + 4)) := by
  obtain ⟨hruns, hload, -⟩ := (exec_next_iff ..).1 ht
  refine (exec_next_iff ..).2 ⟨(formRuns_congr h.platform).2 hruns, ?_, by rw [h.address, h.mem, h.pc]⟩
  rwa [h.address, canLoad_congr h.pc h.platform]

end

/-- A register's first of two writes in a row leaves no trace. -/
theorem setGpr_setGpr (s : State) (i : Gpr) (u v : Doubleword) : (s.setGpr i u).setGpr i v = s.setGpr i v := by
  simp [State.setGpr]

@[simp] theorem registerWrites_mem (i : Instr) (ea : Addr) (v : Doubleword) (s : State) :
    (registerWrites i ea v s).mem = s.mem := by
  rw [registerWrites_eq_with_gprs]

@[simp] theorem registerWrites_platform (i : Instr) (ea : Addr) (v : Doubleword) (s : State) :
    (registerWrites i ea v s).platform = s.platform := by
  rw [registerWrites_eq_with_gprs]

/-- R78: the register writes leave no bit of RT's old value. -/
theorem registerWrites_setGpr_targetGpr (i : Instr) (ea : Addr) (v u : Doubleword) (s : State) :
    registerWrites i ea v (s.setGpr (targetGpr i) u) = registerWrites i ea v s := by
  cases h : updatedGpr i with
  | none => simp only [registerWrites_of_updatedGpr_none h, setGpr_setGpr]
  | some ra => simp only [registerWrites_of_updatedGpr_some h, setGpr_setGpr]

/-- R78: where RT is not read, its old value has no effect at all. -/
theorem exec_setGpr_targetGpr {i : Instr} (h : targetGpr i ∉ readGprs i) (s : State) (v : Doubleword) :
    exec i (s.setGpr (targetGpr i) v) = exec i s := by
  have hagree : LoadsAgree i s (s.setGpr (targetGpr i) v) := (readsAgree_setGpr h s v).loadsAgree
  cases hexec : exec i s with
  | next t =>
    obtain ⟨-, -, rfl⟩ := (exec_next_iff ..).1 hexec
    rw [hagree.next hexec, registerWrites_setGpr_targetGpr]
  | fault f => cases f
  | refused r => exact (hagree.refused_iff r).2 hexec

/-- Settles O23, by the registers after an instruction and the order of its writes. -/
theorem targetReceivesAllBitsFromMemory : Obligations.TargetReceivesAllBitsFromMemory := by
  refine ⟨fun i s t h => ⟨fun hkeep => ?_, fun ra hra => ?_⟩, fun i s v h => exec_setGpr_targetGpr h s v⟩
  · rw [gpr_of_exec_next h, gprAfter_targetGpr hkeep]
  · rw [gpr_of_exec_next h, gprAfter_of_updatedGpr hra]

end Sys2Proof.Machine

/-! ### The four forms beside each other (40_load_doubleword.md R71 to R74; 95_test_vectors.md 2.6) -/

namespace Sys2Proof.Machine

/-- Law 5: base and index commute where neither field is 0. -/
theorem eaLdx_comm (s : State) {ra rb : Gpr} (hra : ra ≠ 0) (hrb : rb ≠ 0) : eaLdx s ra rb = eaLdx s rb ra := by
  rw [eaLdx, eaLdx, base0_of_ne_zero s hra, base0_of_ne_zero s hrb, BitVec.add_comm]

/-- Law 6: an index whose low half is that of the displacement gives the address of the displacement form. -/
theorem eaLd_eq_eaLdx {s : State} {ds : Int} {rb : Gpr} (h : ((s.gpr rb).toNat : Int) % 2 ^ 32 = ds % 2 ^ 32)
    (ra : Gpr) : eaLd s ds ra = eaLdx s ra rb := by
  have hlow : ea32 (dispAddend ds) = ea32 (s.gpr rb) := by
    apply BitVec.eq_of_toNat_eq
    have hdisp := toNat_ea32_dispAddend ds
    rw [toNat_ea32 (s.gpr rb)]
    omega
  rw [eaLd, eaLdx, ea32_add, ea32_add, hlow]

/-- Settles O31: the two plain forms differ in their address alone. -/
theorem indexedAndDisplacementFormsAgree : Obligations.IndexedAndDisplacementFormsAgree := by
  refine fun s rt ra rb ds => ⟨fun hra hrb => ?_, fun h => ?_⟩
  · rw [exec_ldx, exec_ldx, execLdx, execLdx, eaLdx_comm s hra hrb]
  · rw [exec_ld, exec_ldx, execLd, execLdx, eaLd_eq_eaLdx h]

/-- Where a plain form completes, an update form that runs, with the same target and address, completes too, with the
address written to its base after all else. -/
theorem exec_update_of_plain {i j : Instr} {s t : State} {ra : Gpr} (hplain : updatedGpr i = none)
    (hupdate : updatedGpr j = some ra) (htarget : targetGpr j = targetGpr i)
    (hea : effectiveAddress j s = effectiveAddress i s) (hruns : FormRuns j s) (h : exec i s = .next t) :
    exec j s = .next (t.setGpr ra ((effectiveAddress i s).setWidth 64)) := by
  obtain ⟨-, hload, rfl⟩ := (exec_next_iff ..).1 h
  refine (exec_next_iff ..).2 ⟨hruns, by rwa [hea], ?_⟩
  rw [registerWrites_of_updatedGpr_none hplain, registerWrites_of_updatedGpr_some hupdate, htarget, hea]
  rfl

/-- Settles O32: with RA not 0 the two bases are the same register. -/
theorem updateFormIsPlainFormThenBaseUpdate : Obligations.UpdateFormIsPlainFormThenBaseUpdate := by
  intro s t rt ra rb ds hzero hne
  have hbase : base0 s ra = s.gpr ra := base0_of_ne_zero s hzero
  have hdisp : effectiveAddress (.ldu rt ds ra) s = effectiveAddress (.ld rt ds ra) s := by
    simp only [effectiveAddress, eaLd, eaLdu, hbase]
  have hindex : effectiveAddress (.ldux rt ra rb) s = effectiveAddress (.ldx rt ra rb) s := by
    simp only [effectiveAddress, eaLdx, eaLdux, hbase]
  exact ⟨exec_update_of_plain rfl rfl rfl hdisp (.inr ⟨hzero, hne⟩),
    exec_update_of_plain rfl rfl rfl hindex (.inr ⟨hzero, hne⟩)⟩

end Sys2Proof.Machine

/-! ### The step and its instruction (40_load_doubleword.md R70) -/

namespace Sys2Proof.Machine

/-- Settles O34, by the step where the fetch and the decoding succeed. -/
theorem stepRunsTheDecodedInstruction : Obligations.StepRunsTheDecodedInstruction :=
  fun _ _ hfetch hdec _ => step_eq_exec hfetch hdec

end Sys2Proof.Machine

/-! ### What a run leaves alone (10_state.md R14, R19; 40_load_doubleword.md R79) -/

namespace Sys2Proof.Machine

/-- The two states agree on everything but the general registers and the program counter. -/
structure SameBesideGprsAndPc (s t : State) : Prop where
  mem : t.mem = s.mem
  flags : SameFlags s t
  fprFile : t.fprFile = s.fprFile
  vrFile : t.vrFile = s.vrFile
  platform : t.platform = s.platform

theorem SameBesideGprsAndPc.refl (s : State) : SameBesideGprsAndPc s s := ⟨rfl, ⟨rfl, rfl⟩, rfl, rfl, rfl⟩

theorem SameBesideGprsAndPc.trans {s t u : State} (h : SameBesideGprsAndPc s t) (h' : SameBesideGprsAndPc t u) :
    SameBesideGprsAndPc s u where
  mem := h'.mem.trans h.mem
  flags := ⟨h'.flags.1.trans h.flags.1, h'.flags.2.trans h.flags.2⟩
  fprFile := h'.fprFile.trans h.fprFile
  vrFile := h'.vrFile.trans h.vrFile
  platform := h'.platform.trans h.platform

/-- R19: a step that completes changes general registers and the pc alone. -/
theorem step_next_sameBeside {s t : State} (h : step s = .next t) : SameBesideGprsAndPc s t := by
  obtain ⟨-, i, -, hexec⟩ := (step_next_iff s t).1 h
  obtain ⟨⟨-, -, hmem, hflags, hfpr, hvr, hplat⟩, -⟩ := exec_next_frame hexec
  exact ⟨hmem, hflags, hfpr, hvr, hplat⟩

/-- R42, R45: a run changes general registers and the pc alone. -/
theorem stepsTo_sameBeside {k : Nat} {s t : State} (h : stepsTo k s = some t) : SameBesideGprsAndPc s t :=
  stepsTo_induct (P := SameBesideGprsAndPc s) (fun _ _ hu hstep => hu.trans (step_next_sameBeside hstep)) (.refl s) h

/-- R79: each step of a run advances the pc by 4, without wrapping. -/
theorem stepsTo_pc {k : Nat} {s t : State} (h : stepsTo k s = some t) : t.pc.toNat = s.pc.toNat + 4 * k := by
  induction k generalizing s with
  | zero =>
    obtain rfl : s = t := Option.some.inj h
    rfl
  | succ k ih =>
    obtain ⟨u, hu, hrest⟩ := (stepsTo_succ_iff ..).1 h
    have hfirst : u.pc.toNat = s.pc.toNat + 4 := (step_next_pc hu).2
    have hlast : t.pc.toNat = u.pc.toNat + 4 * k := ih hrest
    omega

/-- Settles O44: the frame of a run, and its pc, which stays within 32 bits. -/
theorem runIsStraightLineOverUnchangedMemory : Obligations.RunIsStraightLineOverUnchangedMemory := by
  intro k s t h
  have hpc : t.pc.toNat = s.pc.toNat + 4 * k := stepsTo_pc h
  have hbound : t.pc.toNat < 2 ^ 32 := t.pc.isLt
  have hsame : SameBesideGprsAndPc s t := stepsTo_sameBeside h
  exact ⟨hpc, hsame.mem, hsame.flags, hsame.fprFile, hsame.vrFile, hsame.platform, by omega⟩

end Sys2Proof.Machine

/-! ### The upper halves of the registers steer nothing (40_load_doubleword.md R76; log 7)

Two states that differ at most there are related by every step: the addresses formed in them are the same, so they are
refused alike or load the same doubleword, and what is written to a register does not depend on the registers before. -/

namespace Sys2Proof.Machine

section
variable {s s' : State}

theorem ea32_base0_of_lowHalvesAgree (h : LowHalvesAgree s s') (ra : Gpr) :
    ea32 (base0 s' ra) = ea32 (base0 s ra) := by
  obtain ⟨-, -, -, hgpr⟩ := h
  by_cases hra : ra = 0
  · rw [hra, base0_zero, base0_zero]
  · rw [base0_of_ne_zero s' hra, base0_of_ne_zero s hra]
    exact hgpr ra

/-- R76: the effective address is formed from the low halves of the registers. -/
theorem effectiveAddress_of_lowHalvesAgree (h : LowHalvesAgree s s') (i : Instr) :
    effectiveAddress i s' = effectiveAddress i s := by
  have hbase : ∀ ra, ea32 (base0 s' ra) = ea32 (base0 s ra) := ea32_base0_of_lowHalvesAgree h
  obtain ⟨-, -, -, hgpr⟩ := h
  have hgpr : ∀ r, ea32 (s'.gpr r) = ea32 (s.gpr r) := hgpr
  cases i with
  | ld rt ds ra => simp only [effectiveAddress, eaLd, ea32_add, hbase]
  | ldu rt ds ra => simp only [effectiveAddress, eaLdu, ea32_add, hgpr]
  | ldux rt ra rb => simp only [effectiveAddress, eaLdux, ea32_add, hgpr]
  | ldx rt ra rb => simp only [effectiveAddress, eaLdx, ea32_add, hbase, hgpr]

theorem loadsAgree_of_lowHalvesAgree (h : LowHalvesAgree s s') (i : Instr) : LoadsAgree i s s' := by
  have hea : effectiveAddress i s' = effectiveAddress i s := effectiveAddress_of_lowHalvesAgree h i
  obtain ⟨hpc, hmem, hplat, -⟩ := h
  exact ⟨hpc, hmem, hplat, hea⟩

theorem step_of_fetch_ok {i : Instr} (h : fetch s = .ok i) : step s = exec i s := by
  simp [step, h]

theorem step_of_fetch_error {r : Refusal} (h : fetch s = .error r) : step s = .refused r := by
  simp [step, h]

/-- The fetch reads no general register. -/
theorem fetch_of_lowHalvesAgree (h : LowHalvesAgree s s') : fetch s' = fetch s := by
  obtain ⟨hpc, hmem, hplat, -⟩ := h
  simp only [fetch, fetchWord, hpc, hmem, admits_congr hplat]

/-- Register writes of the same address and doubleword keep the low halves in agreement. -/
theorem registerWrites_lowHalvesAgree (h : LowHalvesAgree s s') (i : Instr) (ea pc : Addr) (v : Doubleword) :
    LowHalvesAgree ((registerWrites i ea v s).setPc pc) ((registerWrites i ea v s').setPc pc) := by
  obtain ⟨-, hmem, hplat, hgpr⟩ := h
  refine ⟨rfl, by simpa using hmem, by simpa using hplat, fun r => ?_⟩
  rw [setPc_gpr, setPc_gpr]
  by_cases hr : r ∈ writtenGprs i
  · rw [gpr_registerWrites_of_mem ea v s s' hr]
  · rw [gpr_registerWrites_of_not_mem ea v s hr, gpr_registerWrites_of_not_mem ea v s' hr, hgpr]

theorem exec_next_of_lowHalvesAgree (h : LowHalvesAgree s s') {i : Instr} {t : State} (ht : exec i s = .next t) :
    ∃ t', exec i s' = .next t' ∧ LowHalvesAgree t t' := by
  refine ⟨_, (loadsAgree_of_lowHalvesAgree h i).next ht, ?_⟩
  obtain ⟨-, -, rfl⟩ := (exec_next_iff ..).1 ht
  exact registerWrites_lowHalvesAgree h ..

/-- A step that completes in one of the two states completes in the other, and they stay related. -/
theorem step_next_of_lowHalvesAgree (h : LowHalvesAgree s s') {t : State} (ht : step s = .next t) :
    ∃ t', step s' = .next t' ∧ LowHalvesAgree t t' := by
  rcases step_cases s with ⟨r, -, e⟩ | ⟨i, hf, e⟩
  · simp [e] at ht
  · obtain ⟨t', ht', hlow⟩ := exec_next_of_lowHalvesAgree h (e ▸ ht)
    have hf' : fetch s' = .ok i := (fetch_of_lowHalvesAgree h).trans hf
    exact ⟨t', (step_of_fetch_ok hf').trans ht', hlow⟩

/-- A step that is refused in one of the two states is refused in the other for the same reason. -/
theorem step_refused_of_lowHalvesAgree (h : LowHalvesAgree s s') {r : Refusal} (hr : step s = .refused r) :
    step s' = .refused r := by
  have hfetch : fetch s' = fetch s := fetch_of_lowHalvesAgree h
  rcases step_cases s with ⟨r', hf, e⟩ | ⟨i, hf, e⟩
  · rw [← hr, e, step_of_fetch_error (hfetch.trans hf)]
  · rw [step_of_fetch_ok (hfetch.trans hf)]
    exact ((loadsAgree_of_lowHalvesAgree h i).refused_iff r).2 (e ▸ hr)

end

/-- Two runs from related states stay related, step by step. -/
theorem stepsTo_of_lowHalvesAgree {k : Nat} {s s' t : State} (h : LowHalvesAgree s s') (ht : stepsTo k s = some t) :
    ∃ t', stepsTo k s' = some t' ∧ LowHalvesAgree t t' := by
  induction k generalizing s s' with
  | zero =>
    obtain rfl : s = t := Option.some.inj ht
    exact ⟨s', rfl, h⟩
  | succ k ih =>
    obtain ⟨u, hu, hrest⟩ := (stepsTo_succ_iff ..).1 ht
    obtain ⟨u', hu', hlow⟩ := step_next_of_lowHalvesAgree h hu
    obtain ⟨t', ht', hlow'⟩ := ih hlow hrest
    exact ⟨t', (stepsTo_succ_iff ..).2 ⟨u', hu', ht'⟩, hlow'⟩

/-- Settles O47, by simulation: related states stay related, and are refused alike. -/
theorem upperHalvesOfRegistersNeverSteerARun : Obligations.UpperHalvesOfRegistersNeverSteerARun := by
  refine fun k s s' h => ⟨fun t => stepsTo_of_lowHalvesAgree h, fun t r ht hr => ?_⟩
  obtain ⟨t', ht', hlow⟩ := stepsTo_of_lowHalvesAgree h ht
  exact ⟨t', ht', step_refused_of_lowHalvesAgree hlow hr⟩

end Sys2Proof.Machine

/-! ### The order of the refusal tests (60_exceptions.md R94) -/

namespace Sys2Proof.Machine

/-- R39: a form that runs, at an address below the top of the space that `Admit` rejects, is refused `NotAdmitted`
whatever the pc. -/
theorem exec_of_not_admits {i : Instr} {s : State} (hruns : FormRuns i s)
    (htop : (effectiveAddress i s).toNat ≤ 0xFFFFFFF8) (hadm : s.admits (effectiveAddress i s) 8 .data = false) :
    exec i s = .refused .notAdmitted :=
  (exec_refused_iff ..).2 (.inr ⟨hruns, .inl (load8_of_not_admits htop hadm)⟩)

/-- Settles O36: first the tests of the fetch and the decoder; where they pass, the step is the instruction's meaning,
whose own tests are of its form, its address, the admission of its data and the pc. -/
theorem refusalTestsComeInTheirOrder : Obligations.RefusalTestsComeInTheirOrder := by
  intro s
  refine ⟨(step_fetchMisaligned_iff s).2, step_of_fetch_not_admits, step_of_decode_error, step_of_decode_error,
    fun i hfetch hdec => ?_⟩
  rw [step_eq_exec hfetch hdec]
  refine ⟨exec_of_not_formRuns, fun hruns => (exec_topOfSpace_iff hruns).2, exec_of_not_admits,
    fun hruns htop hadm hpc => exec_lastWord_refused hpc hruns htop hadm, fun hruns hload => ?_⟩
  obtain ⟨t, ht, -⟩ := exec_of_canLoad hruns hload
  exact ⟨t, ht⟩

end Sys2Proof.Machine

/-! ### A launched program, word by word (70_reset_and_hazards.md R111; 20_memory.md R42; logs 12 and 24) -/

namespace Sys2Proof.Machine

/-- R79: after `k` steps the pc stands at the `k`-th word from where the run began. -/
theorem stepsTo_pc_eq_wordAddr {k : Nat} {s t : State} (h : stepsTo k s = some t) : t.pc = wordAddr s k := by
  have hpc : t.pc.toNat = s.pc.toNat + 4 * k := stepsTo_pc h
  have hbound : t.pc.toNat < 2 ^ 32 := t.pc.isLt
  apply BitVec.eq_of_toNat_eq
  rw [wordAddr, BitVec.toNat_add, BitVec.toNat_ofNat]
  omega

/-- R111, R42: neither memory nor `Admit` changes along a run, so a launched program's `k`-th word is still there to be
fetched after `k` steps. -/
theorem LaunchOk.fetches {program : List Word} {s t : State} {k : Nat} {w : Word} (hlaunch : LaunchOk program s)
    (hw : program[k]? = some w) (ht : stepsTo k s = some t) : CanFetch t ∧ fetchWord t = w := by
  obtain ⟨haligned, -, hwords⟩ := hlaunch
  obtain ⟨hadm, hread⟩ := hwords k w hw
  have hsame : SameBesideGprsAndPc s t := stepsTo_sameBeside ht
  have hpc : t.pc = wordAddr s k := stepsTo_pc_eq_wordAddr ht
  have htaligned : t.pc.toNat % 4 = 0 := by
    rw [stepsTo_pc ht]
    omega
  refine ⟨⟨htaligned, ?_⟩, ?_⟩
  · rw [admits_congr hsame.platform, hpc, hadm]
  · rw [fetchWord, hsame.mem, hpc, hread]

/-- Settles O45: the `k`-th word is the one fetched, so the decoder's answer for it decides the step. -/
theorem launchedProgramRunsInOrder : Obligations.LaunchedProgramRunsInOrder := by
  intro program s t k w hlaunch hw ht
  obtain ⟨hfetch, rfl⟩ := hlaunch.fetches hw ht
  exact ⟨fun i => step_eq_exec hfetch, step_of_decode_error hfetch, step_of_decode_error hfetch⟩

end Sys2Proof.Machine

/-! ### Two instructions in a row (70_reset_and_hazards.md R113; log 23) -/

namespace Sys2Proof.Machine

/-- Settles O33: the second instruction forms its address from the registers as the first leaves them, and reads the
memory that the first leaves unchanged. -/
theorem loadSeesRegisterLoadedJustBefore : Obligations.LoadSeesRegisterLoadedJustBefore := by
  intro i j s t u a hfirst hsecond ha
  have hregs : t.gpr = gprAfter i s := funext (gpr_of_exec_next hfirst)
  obtain ⟨⟨-, -, hmem, -⟩, -⟩ := exec_next_frame hfirst
  have hea : effectiveAddress j t = a := effectiveAddress_eq_of_toNat (hregs ▸ ha)
  have hloaded : LoadedFrom j a t u := hea ▸ loadedFrom_of_exec_next hsecond
  exact ⟨hmem ▸ hloaded.target, hloaded.base⟩

end Sys2Proof.Machine

/-! ### How a bounded run stands (70_reset_and_hazards.md R112; 60_exceptions.md R95; logs 15 and 22) -/

namespace Sys2Proof.Machine

section
variable {halt : State → Bool} {s : State}

/-- R112: where `HALT` holds the run has ended, and no step is taken. -/
theorem runUntil_of_halt (h : halt s = true) (k : Nat) : runUntil halt k s = .ended s := by
  cases k <;> simp [runUntil, h]

theorem runUntil_zero (h : halt s = false) : runUntil halt 0 s = .running s := by
  simp [runUntil, h]

theorem runUntil_succ_of_next (h : halt s = false) {t : State} (ht : step s = .next t) (k : Nat) :
    runUntil halt (k + 1) s = runUntil halt k t := by
  simp [runUntil, h, ht]

/-- R95: a refused run stands at the state before the refused step. -/
theorem runUntil_succ_of_refused (h : halt s = false) {r : Refusal} (hr : step s = .refused r) (k : Nat) :
    runUntil halt (k + 1) s = .refused r s := by
  simp [runUntil, h, hr]

/-- What it takes for a run of at most `k` steps from `s` to stand as it does. -/
def StandingReached (halt : State → Bool) (k : Nat) (s : State) : RunStatus → Prop
  | .ended t => halt t = true ∧ ∃ j, j ≤ k ∧ stepsTo j s = some t
  | .refused r t => halt t = false ∧ step t = .refused r ∧ ∃ j, j < k ∧ stepsTo j s = some t
  | .running t => halt t = false ∧ stepsTo k s = some t

theorem standingReached_of_halt (h : halt s = true) (k : Nat) : StandingReached halt k s (runUntil halt k s) := by
  rw [runUntil_of_halt h]
  exact ⟨h, 0, Nat.zero_le k, rfl⟩

/-- A standing reached after a step is reached from before it, one step later. -/
theorem StandingReached.of_step {k : Nat} {t : State} (ht : step s = .next t) {status : RunStatus}
    (h : StandingReached halt k t status) : StandingReached halt (k + 1) s status := by
  have hlater : ∀ j u, stepsTo j t = some u → stepsTo (j + 1) s = some u :=
    fun j u hu => (stepsTo_succ_iff ..).2 ⟨t, ht, hu⟩
  cases status with
  | ended u =>
    obtain ⟨hhalt, j, hj, hu⟩ := h
    exact ⟨hhalt, j + 1, Nat.succ_le_succ hj, hlater j u hu⟩
  | refused r u =>
    obtain ⟨hhalt, hr, j, hj, hu⟩ := h
    exact ⟨hhalt, hr, j + 1, Nat.succ_lt_succ hj, hlater j u hu⟩
  | running u =>
    obtain ⟨hhalt, hu⟩ := h
    exact ⟨hhalt, hlater k u hu⟩

end

/-- A run stands where its steps have taken it. -/
theorem runUntil_standingReached (halt : State → Bool) (k : Nat) (s : State) :
    StandingReached halt k s (runUntil halt k s) := by
  induction k generalizing s with
  | zero =>
    cases hhalt : halt s with
    | true => exact standingReached_of_halt hhalt _
    | false =>
      rw [runUntil_zero hhalt]
      exact ⟨hhalt, rfl⟩
  | succ k ih =>
    cases hhalt : halt s with
    | true => exact standingReached_of_halt hhalt _
    | false =>
      cases hstep : step s with
      | next t =>
        rw [runUntil_succ_of_next hhalt hstep]
        exact .of_step hstep (ih t)
      | fault f => exact nomatch f
      | refused r =>
        rw [runUntil_succ_of_refused hhalt hstep]
        exact ⟨hhalt, hstep, 0, Nat.succ_pos k, rfl⟩

/-- Settles O46: each standing is one that the run's steps have reached. -/
theorem runEndsAtHaltOrStandsAtRefusedStep : Obligations.RunEndsAtHaltOrStandsAtRefusedStep := by
  intro halt k s t r
  have hreached : StandingReached halt k s (runUntil halt k s) := runUntil_standingReached halt k s
  exact ⟨fun hhalt => runUntil_of_halt hhalt k, fun h => by rwa [h] at hreached, fun h => by rwa [h] at hreached,
    fun h => by rwa [h] at hreached⟩

end Sys2Proof.Machine

/-! ### The reset state (70_reset_and_hazards.md R110) -/

namespace Sys2Proof.Machine

/-- The reset pc can be fetched from: the model's choice (log 2) meets the alignment that R35 asks of every pc. -/
theorem reset_pc_aligned : State.reset.pc.toNat % 4 = 0 := by decide

/-- Settles O42: reset starts at an aligned pc with a memory that lists no byte. -/
theorem resetStateHasTheInvariant : Obligations.ResetStateHasTheInvariant := ⟨reset_pc_aligned, reset_mem_wf⟩

end Sys2Proof.Machine
